-- ==== Sys2Proof/Word.lean ====
section
/-! DEFINITION. The word types of the GHASH-CLMUL block: bytes, bus words, 16-byte strings and polynomial registers
(00_scope.md R5, R7 to R9). -/

namespace Sys2Proof

/-- Eight bits: the unit the register window is addressed in (20_memory.md R50). -/
abbrev Byte := BitVec 8

/-- A bus word or a command word (00_scope.md R5 BUS_BITS, 30_encoding.md R80). -/
abbrev Word32 := BitVec 32

/-- A 64-bit half of a polynomial (00_scope.md R5 HALF_BITS, R11). -/
abbrev Half := BitVec 64

/-- A 16-byte string (00_scope.md R8), byte 0 in the MOST significant eight bits, so that `0x66e9…2e#128` is the
spec's `bytes 66e9…2e` (DEDUCED, log 13). -/
abbrev Block := BitVec 128

/-- A polynomial register (00_scope.md R9): bit `k` is the coefficient of `x^k`. -/
abbrev Poly := BitVec 128

end Sys2Proof
end

