-- ==== Sys2Proof/Config.lean ====
section
/-! DEFINITION. What an implementation fixes (00_scope.md R5) and the values the spec leaves free
(93_implementation_defined.md U1, U3, U4). -/

namespace Sys2Proof.Config

/-- TBL_MAX_POWERS: the most powers the table holds (00_scope.md R5). -/
def tblMaxPowers : Nat := 8

/-- BLK_BLOCKS: the blocks of the input buffer (00_scope.md R5). -/
def blkBlocks : Nat := 8

/-- AUTH_LEN_MAX: the largest LEN an AUTH accepts (00_scope.md R5). -/
def authLenMax : Nat := 16 * blkBlocks + 15

/-- WINDOW_BYTES: the size of the register window (00_scope.md R5, 20_memory.md R50). -/
def windowBytes : Nat := 0x100

/-- OPEN (92_eei_decisions.md D5): which multiple of WINDOW_BYTES the window stands at. No body: a claim holds for
every base. -/
opaque baseWindow : Nat

/-- BASE: the bus address of the window, a multiple of WINDOW_BYTES (00_scope.md R5). -/
def base : Nat := windowBytes * baseWindow

/-- The byte offset from BASE of an absolute bus address, negative below the window (20_memory.md R50; log 5). -/
def offsetOf (addr : Nat) : Int := (addr : Int) - (base : Int)

/-- FREE VALUE (93_implementation_defined.md U1, U4; log 7, 8): the byte that draw number `draw` gives in lane `lane`.
No body. -/
opaque freeByte (draw lane : Nat) : Byte

/-- FREE VALUE (10_state.md R39, 93_implementation_defined.md U3; log 10): what accumulator `which` holds after the
completion that is draw number `draw`, of degree at most 126 as R39 says. No body. -/
opaque freePartial (draw which : Nat) : BitVec 127

end Sys2Proof.Config
end

