-- ==== Sys2Proof/Syntax.lean ====
section
/-! DEFINITION. The commands (one constructor per row of the opcode table), the data registers and the error codes'
names (30_encoding.md R82, R84; 10_state.md R22; 60_exceptions.md R220). -/

namespace Sys2Proof

/-- A command, with the operand its word carries as the word carries it (30_encoding.md R81 to R83). Which operands
are legal is `Instr.wellFormed` and `operandError` (R84). -/
inductive Instr where
  | nop
  | mul
  /-- LEN is the table size in bytes. -/
  | build (len : BitVec 8)
  /-- LEN is the input length in bytes. -/
  | auth (len : BitVec 8)
  /-- RSEL names the register. -/
  | norm (rsel : BitVec 4)
  deriving DecidableEq, Repr

/-- The five 128-bit data registers (10_state.md R22). -/
inductive DataReg where
  | a | b | res | acc | hkey
  deriving DecidableEq, Repr

/-- The errors a host write can record in STATUS (60_exceptions.md R220). -/
inductive CmdError where
  | illegalOpcode | reservedNonzero | badRsel | badSize | badLen | noTable | cmdBusy | writeBusy
  deriving DecidableEq, Repr

end Sys2Proof
end

