-- ==== Sys2Proof/WellFormed.lean ====
section
/-! DEFINITION. Which commands have legal operands (30_encoding.md R84). -/

namespace Sys2Proof

/-- The operand values R84 calls legal: BUILD a positive multiple of 32 up to 16·TBL_MAX_POWERS bytes, AUTH at most
AUTH_LEN_MAX bytes, NORM one of the five registers. -/
def Instr.wellFormed : Instr → Bool
  | .nop => true
  | .mul => true
  | .build len => len.toNat ∈ [32, 64, 96, 128]
  | .auth len => len.toNat ≤ Config.authLenMax
  | .norm rsel => rsel.toNat ≤ 4

end Sys2Proof
end

