-- ==== Sys2Proof/Decode.lean ====
section
/-! DEFINITION. Command words: the fields, the total decoder, and the encoder (30_encoding.md R80 to R88). -/

namespace Sys2Proof

/-- OPC, bits [7:0] (30_encoding.md R80). -/
def opcField (d : Word32) : BitVec 8 := d.extractLsb' 0 8

/-- RSEL, bits [11:8]. -/
def rselField (d : Word32) : BitVec 4 := d.extractLsb' 8 4

/-- RSV0, bits [15:12]. -/
def rsv0Field (d : Word32) : BitVec 4 := d.extractLsb' 12 4

/-- LEN, bits [23:16]. -/
def lenField (d : Word32) : BitVec 8 := d.extractLsb' 16 8

/-- RSV1, bits [31:24]. -/
def rsv1Field (d : Word32) : BitVec 8 := d.extractLsb' 24 8

/-- The fixed bits of one row of the opcode table and their value (30_encoding.md R83). -/
structure OpcodeRow where
  mask : Word32
  pattern : Word32
  deriving DecidableEq, Repr

/-- The fixed bits of each opcode (30_encoding.md R83), `none` for the illegal opcodes 0x05 to 0xFF (R82, R85). -/
def opcodeRow (opc : BitVec 8) : Option OpcodeRow :=
  match opc.toNat with
  | 0 => some ⟨0xFFFFFFFF, 0x00000000⟩
  | 1 => some ⟨0xFFFFFFFF, 0x00000001⟩
  | 2 => some ⟨0xFF00FFFF, 0x00000002⟩
  | 3 => some ⟨0xFF00FFFF, 0x00000003⟩
  | 4 => some ⟨0xFFFFF0FF, 0x00000004⟩
  | _ => none

/-- The command of a legal opcode with its operand field (30_encoding.md R81, R82). -/
def operandsOf (opc : BitVec 8) (d : Word32) : Option Instr :=
  match opc.toNat with
  | 0 => some .nop
  | 1 => some .mul
  | 2 => some (.build (lenField d))
  | 3 => some (.auth (lenField d))
  | 4 => some (.norm (rselField d))
  | _ => none

/-- Items 1 and 2 of decode(d) (30_encoding.md R87): the opcode, then the bits outside its operand. -/
def decodeFields (d : Word32) : Except CmdError Instr :=
  match opcodeRow (opcField d), operandsOf (opcField d) d with
  | some row, some i => if d &&& row.mask = row.pattern then .ok i else .error .reservedNonzero
  | _, _ => .error .illegalOpcode

/-- Item 3 of decode(d): the error of an illegal operand (30_encoding.md R84). -/
def operandError : Instr → Option CmdError
  | .nop => none
  | .mul => none
  | .build len => if len.toNat % 32 = 0 ∧ 0 < len.toNat ∧ len.toNat ≤ 16 * Config.tblMaxPowers then none else some .badSize
  | .auth len => if len.toNat ≤ Config.authLenMax then none else some .badLen
  | .norm rsel => if rsel.toNat < 5 then none else some .badRsel

/-- decode(d), total on all command words (30_encoding.md R87). -/
def decode (d : Word32) : Except CmdError Instr :=
  match decodeFields d with
  | .error e => .error e
  | .ok i =>
    match operandError i with
    | some e => .error e
    | none => .ok i

/-- The command word of the fields, from the most significant down (30_encoding.md R80). -/
def assemble (len : BitVec 8) (rsel : BitVec 4) (opc : BitVec 8) : Word32 :=
  0#8 ++ len ++ 0#4 ++ rsel ++ opc

/-- The command word of a command (30_encoding.md R88). -/
def encode : Instr → Word32
  | .nop => assemble 0 0 0x00
  | .mul => assemble 0 0 0x01
  | .build len => assemble len 0 0x02
  | .auth len => assemble len 0 0x03
  | .norm rsel => assemble 0 rsel 0x04

/-- The command word that the opcode table's bits are: one word of 32 bits, the bits above `nbits` zero. -/
def tableWord (nbits w : Nat) : Word32 := BitVec.ofNat 32 (w % 2 ^ nbits)

/-- The command the decoder reads from the opcode table's bits `w`. The legality of the operand (R84) is checked by
the command's meaning when it is issued (log 19). -/
def decodeTableWord (nbits w : Nat) : Option Instr :=
  match decodeFields (tableWord nbits w) with
  | .ok i => some i
  | .error _ => none

end Sys2Proof
end

