-- ==== Sys2Proof/Machine/State.lean ====
section
/-! DEFINITION. The state of the block (10_state.md R20), what the outside world feeds it, the ways a step can stop,
and the state right after reset (10_state.md R44). -/

namespace Sys2Proof.Machine

open Sys2Proof

/-- The five data registers (10_state.md R22 to R25, R37), each a 16-byte string. -/
structure DataRegs where
  a : Block
  b : Block
  res : Block
  acc : Block
  hkey : Block
  deriving DecidableEq, Repr

/-- The held fields of STATUS (10_state.md R29, R31 to R33). BUSY is 1 exactly when a command is pending (R30), so it
is the view `State.busy` and is not stored a second time (log 14). -/
structure Status where
  done : Bool
  err : Bool
  errMulti : Bool
  errCode : BitVec 4
  tblPowers : BitVec 4
  deriving DecidableEq, Repr

/-- The held fields of REMAIN (10_state.md R35). -/
structure Remain where
  rem : BitVec 4
  consumed : BitVec 8
  deriving DecidableEq, Repr

/-- The partial-product accumulators C0, C1, C2 (10_state.md R39). -/
structure Partials where
  c0 : Poly
  c1 : Poly
  c2 : Poly
  deriving DecidableEq, Repr

/-- The in-flight command (10_state.md R38): op, rsel and len are the command, `revS` is CTRL.REV at acceptance. -/
structure Pending where
  instr : Instr
  revS : Bool
  deriving DecidableEq, Repr

/-- The block buffer's memory (10_state.md R40): a byte for each window offset written since reset, offsets strictly
rising. An offset that is not listed reads as a free value (93_implementation_defined.md U1; log 7). -/
abbrev Memory := List Host.Cell

/-- TBL[1..8] (10_state.md R41); entry `k - 1` is slot `k`. -/
abbrev Table := Vector Poly 8

/-- The direction of a bus transaction, with the data word of a write (20_memory.md R55). -/
inductive Access where
  | read
  | write (d : Word32)
  deriving DecidableEq, Repr

/-- A host bus transaction: the byte offset of its address from BASE, negative below the window (log 5), the byte
lanes it transfers, and its direction (20_memory.md R50, R55, R56). -/
structure BusTransaction where
  off : Int
  strobes : BitVec 4
  access : Access
  deriving DecidableEq, Repr

/-- What the next step is (20_memory.md R62, 93_implementation_defined.md U10; log 1): a host transaction, the
engine's turn, or a change of the reset input (70_reset_and_hazards.md R260). -/
inductive Input where
  | bus (t : BusTransaction)
  | engine
  | assertReset
  | releaseReset
  deriving DecidableEq, Repr

/-- The whole state. The last three fields are the model's own (INVENTORY.md): the steps to come, the data the last
step's bus read returned, and how many steps that draw free values have happened. -/
structure State where
  regs : DataRegs
  blk : Memory
  ctrl : BitVec 3
  status : Status
  remain : Remain
  tbl : Table
  pend : Option Pending
  parts : Partials
  inReset : Bool
  inputs : List Input
  rdata : Option Word32
  draws : Nat
  deriving DecidableEq, Repr

/-- Why the machine stops. -/
inductive Fault where
  /-- Raised by a bus transaction that is misaligned or does not transfer a full word (20_memory.md R56, 60_exceptions.md
  R225, 93_implementation_defined.md U5). Safe: the block answers a bus error and goes on unchanged, the model stops (log 4). -/
  | busFault
  /-- Raised by a bus transaction while reset is asserted, which the block does not accept (70_reset_and_hazards.md
  R260, 93_implementation_defined.md U7 "stuck"). Safe: what the bus does then is the platform's. -/
  | heldInReset
  deriving DecidableEq, Repr

/-- What the model gives no meaning. -/
inductive Refusal where
  /-- Raised by `exec` for a command that has no meaning yet. Safe. No command of this model is left without one. -/
  | notModelled (mnemonic : String)
  /-- Raised by a bus transaction outside the window (20_memory.md R53, 93_implementation_defined.md U6 "refuse").
  Safe: such an access never reaches the block. -/
  | outsideWindow
  deriving DecidableEq, Repr

/-- The state right after reset (10_state.md R44). The values of TBL and C0 to C2, which R44 leaves unspecified, and
the model's own fields are DESIGN CHOICES (log 9, 10, 11, 12). -/
def State.reset : State where
  regs := ⟨0, 0, 0, 0, 0⟩
  blk := []
  ctrl := 0
  status := ⟨false, false, false, 0, 0⟩
  remain := ⟨0, 0⟩
  tbl := ⟨⟨[0, 0, 0, 0, 0, 0, 0, 0]⟩, rfl⟩
  pend := none
  parts := ⟨0, 0, 0⟩
  inReset := false
  inputs := []
  rdata := none
  draws := 0

end Sys2Proof.Machine
end

