-- ==== Sys2Proof/Machine/Field.lean ====
section
/-! DEFINITION. Byte strings, the field-element view, and the arithmetic of GF(2^128)
(00_scope.md R8 to R12; 41_field_primitive.md R120 to R127). -/

namespace Sys2Proof.Machine

open Sys2Proof

/-! ### Byte strings (00_scope.md R8) -/

/-- `R.byte[k]` for `k` up to 15. -/
def byteOf (r : Block) (k : Nat) : Byte := r.extractLsb' (8 * (15 - k)) 8

/-- The 16-byte string with byte `k` equal to `f k`. -/
def ofBytes (f : Nat → Byte) : Block :=
  f 0 ++ f 1 ++ f 2 ++ f 3 ++ f 4 ++ f 5 ++ f 6 ++ f 7 ++ f 8 ++ f 9 ++ f 10 ++ f 11 ++ f 12 ++ f 13 ++ f 14 ++ f 15

/-- A 32-bit bus word from its four byte lanes, lane 0 least significant (20_memory.md R55). -/
def wordOfLanes (l : Nat → Byte) : Word32 := l 3 ++ l 2 ++ l 1 ++ l 0

/-- Byte lane `b` of a bus word: bits [8b+7:8b] (20_memory.md R55). -/
def laneOf (d : Word32) (b : Nat) : Byte := d.extractLsb' (8 * b) 8

/-- The bus word at offset `off(R) + 4j` (20_memory.md R55). -/
def wordOf (r : Block) (j : Nat) : Word32 := wordOfLanes fun b => byteOf r (4 * j + b)

/-- The register after a bus write of `d` to its word `j`: byte `4j+b` takes lane `b` (20_memory.md R57). -/
def withWord (r : Block) (j : Nat) (d : Word32) : Block :=
  ofBytes fun k => if k / 4 = j then laneOf d (k % 4) else byteOf r k

/-- The string whose bus word `j` is `w j`, for `j` up to 3: how `rd128` reassembles what it read (30_encoding.md R89,
20_memory.md R55). -/
def ofWords (w : Nat → Word32) : Block := ofBytes fun k => laneOf (w (k / 4)) (k % 4)

/-- `rev16(R)`: byte `k` is `R.byte[15 - k]` (00_scope.md R13). -/
def rev16 (r : Block) : Block := ofBytes fun k => byteOf r (15 - k)

/-! ### The field-element view (00_scope.md R10, R11) -/

/-- `fe(R)`: the coefficient of `x^i` is bit `7 - i mod 8` of byte `i div 8` (00_scope.md R10). With byte 0 most
significant that is bit `127 - i` of the string. -/
def fe (r : Block) : Poly := r.reverse

/-- `bytes(p)`, the inverse of `fe` (00_scope.md R10). -/
def bytesOf (p : Poly) : Block := p.reverse

/-- `lo(p)`: the coefficients 0 to 63 (00_scope.md R11). -/
def lo (p : Poly) : Half := p.extractLsb' 0 64

/-- `hi(p)`: the coefficients 64 to 127, shifted down (00_scope.md R11). -/
def hi (p : Poly) : Half := p.extractLsb' 64 64

/-! ### Carry-less products and reduction -/

/-- The terms `coef(a,i)·x^i·b` for `i < n`, summed. -/
def clmulTerms (a : Half) (b : Poly) : Nat → Poly
  | 0 => 0
  | n + 1 => clmulTerms a b n ^^^ (if a.getLsbD n then b <<< n else 0)

/-- `clmul64(a, b)`, the carry-less product of two halves (41_field_primitive.md R121). -/
def clmul64 (a b : Half) : Poly := clmulTerms a (b.setWidth 128) 64

/-- The partial product of weight `x^128` (41_field_primitive.md R124), the source's c0. -/
def partialHH (a b : Poly) : Poly := clmul64 (hi a) (hi b)

/-- The cross term, of weight `x^64` (41_field_primitive.md R124), the source's c1. -/
def partialX (a b : Poly) : Poly := clmul64 (lo a) (hi b) ^^^ clmul64 (hi a) (lo b)

/-- The partial product of weight `x^0` (41_field_primitive.md R124), the source's c2. -/
def partialLL (a b : Poly) : Poly := clmul64 (lo a) (lo b)

/-- `v·(x^7 + x^2 + x + 1)`, the fold of 41_field_primitive.md R126. -/
def foldOnce {w : Nat} (v : BitVec w) : BitVec w := v ^^^ v <<< 1 ^^^ v <<< 2 ^^^ v <<< 7

/-- `Reduce(c0, c1, c2)`: the two-fold reduction modulo g (41_field_primitive.md R126). -/
def reduce (c0 c1 c2 : Poly) : Poly :=
  let d : BitVec 256 := c2.setWidth 256 ^^^ c1.setWidth 256 <<< 64 ^^^ c0.setWidth 256 <<< 128
  let t : BitVec 256 := foldOnce ((d.extractLsb' 128 128).setWidth 256)
  let u : Poly := foldOnce (t.extractLsb' 128 128)
  d.extractLsb' 0 128 ^^^ t.extractLsb' 0 128 ^^^ u

/-- The field product `a ⊗ b` of two field elements (00_scope.md R12, 41_field_primitive.md R120). -/
def fieldMul (a b : Poly) : Poly := reduce (partialHH a b) (partialX a b) (partialLL a b)

/-- `GFMUL(X, Y)`, the reference function on byte strings (41_field_primitive.md R125). -/
def gfmul (x y : Block) : Block := bytesOf (fieldMul (fe x) (fe y))

end Sys2Proof.Machine
end

