-- ==== Sys2Proof/Machine/Flags.lean ====
section
/-! DEFINITION. The flags and the words the control registers read as (10_state.md R26 to R35, R43, R45), and the
error codes (60_exceptions.md R220). -/

namespace Sys2Proof.Machine

open Sys2Proof

/-- STATUS.BUSY: 1 exactly when a command is pending (10_state.md R30). -/
def State.busy (s : State) : Bool := s.pend.isSome

/-- CTRL.REV (10_state.md R28). -/
def State.rev (s : State) : Bool := s.ctrl.getLsbD 0

/-- CTRL.DONE_IE (10_state.md R28). -/
def State.doneIE (s : State) : Bool := s.ctrl.getLsbD 1

/-- CTRL.ERR_IE (10_state.md R28). -/
def State.errIE (s : State) : Bool := s.ctrl.getLsbD 2

/-- The interrupt output, level-sensitive and active high (10_state.md R43, 60_exceptions.md R227). -/
def State.irq (s : State) : Bool := (s.status.done && s.doneIE) || (s.status.err && s.errIE)

/-- The number of valid powers in TBL (10_state.md R33). -/
def State.powers (s : State) : Nat := s.status.tblPowers.toNat

/-- The code of each error in STATUS.ERR_CODE (60_exceptions.md R220); 0 is NONE. -/
def errorCode : CmdError → BitVec 4
  | .illegalOpcode => 0x1
  | .reservedNonzero => 0x2
  | .badRsel => 0x3
  | .badSize => 0x4
  | .badLen => 0x5
  | .noTable => 0x6
  | .cmdBusy => 0x7
  | .writeBusy => 0x8

/-- The constant ID reads as (10_state.md R26). -/
def idWord : Word32 := 0x47434D31

/-- The constant CAP reads as, from its fields (10_state.md R27). -/
def capWord : Word32 :=
  0#8 ++ 1#8 ++ BitVec.ofNat 8 Config.blkBlocks ++ BitVec.ofNat 8 Config.tblMaxPowers

/-- The word CTRL reads as (20_memory.md R58). -/
def ctrlWord (s : State) : Word32 := s.ctrl.setWidth 32

/-- The word STATUS reads as, from bit 31 down (10_state.md R29). -/
def statusWord (s : State) : Word32 :=
  0#12 ++ s.status.tblPowers ++ 0#4 ++ s.status.errCode ++ 0#4 ++
    BitVec.ofBool s.status.errMulti ++ BitVec.ofBool s.status.err ++ BitVec.ofBool s.status.done ++
    BitVec.ofBool s.busy

/-- The word REMAIN reads as, from bit 31 down (10_state.md R35). -/
def remainWord (s : State) : Word32 := 0#16 ++ s.remain.consumed ++ 0#4 ++ s.remain.rem

end Sys2Proof.Machine
end

