-- ==== Sys2Proof/Machine/Operands.lean ====
section
/-! DEFINITION. The operands of the commands: LEN, the register RSEL names, the block buffer and the table
(30_encoding.md R84; 10_state.md R22, R40, R41). -/

namespace Sys2Proof.Machine

open Sys2Proof

/-! ### LEN (41_field_primitive.md R129) -/

/-- `LEN div 16`: the whole blocks of an AUTH, the powers of a BUILD. -/
def wholeBlocks (len : BitVec 8) : Nat := len.toNat / 16

/-- `LEN mod 16`: the trailing bytes of an AUTH. -/
def trailingBytes (len : BitVec 8) : Nat := len.toNat % 16

/-! ### The data registers -/

/-- The register RSEL names (30_encoding.md R84). -/
def regOfRsel (rsel : BitVec 4) : Option DataReg :=
  match rsel.toNat with
  | 0 => some .a
  | 1 => some .b
  | 2 => some .res
  | 3 => some .acc
  | 4 => some .hkey
  | _ => none

/-- `x[R]` (00_scope.md R13). -/
def DataRegs.read (x : DataRegs) : DataReg → Block
  | .a => x.a
  | .b => x.b
  | .res => x.res
  | .acc => x.acc
  | .hkey => x.hkey

/-- `x[R] <- v` (00_scope.md R13). -/
def DataRegs.write (x : DataRegs) (r : DataReg) (v : Block) : DataRegs :=
  match r with
  | .a => { x with a := v }
  | .b => { x with b := v }
  | .res => { x with res := v }
  | .acc => { x with acc := v }
  | .hkey => { x with hkey := v }

/-- The state with data register `r` holding `v`. -/
def State.setReg (s : State) (r : DataReg) (v : Block) : State := { s with regs := s.regs.write r v }

/-! ### The block buffer (10_state.md R40) -/

/-- The byte written at window offset `a` since reset, `none` if there is none. -/
def Memory.lookup (a : Nat) : Memory → Option Byte
  | [] => none
  | (b, v) :: m => if a = b then some v else Memory.lookup a m

/-- The memory after a byte write, offsets kept strictly rising. -/
def Memory.write (a : Nat) (v : Byte) : Memory → Memory
  | [] => [(a, v)]
  | (b, w) :: m =>
    if a < b then (a, v) :: (b, w) :: m
    else if a = b then (a, v) :: m
    else (b, w) :: Memory.write a v m

/-- Every offset is above `n` and below the window's end, and the offsets rise strictly. -/
def Memory.wfAbove (n : Nat) : Memory → Bool
  | [] => true
  | (b, _) :: m => n ≤ b && b < Config.windowBytes && Memory.wfAbove (b + 1) m

/-- The one canonical form of the block buffer's memory: offsets strictly rising, all of them in 0x80 to 0xFF. -/
def Memory.wf (m : Memory) : Bool := Memory.wfAbove 0x80 m

/-- The window offset of `BLK[i].byte[k]` (10_state.md R36). -/
def blkOffset (i k : Nat) : Nat := 0x80 + 16 * i + k

/-- The byte at window offset `a` of the block buffer, read in the step whose draw number is `s.draws`: a byte nobody
has written since reset is a fresh free value (10_state.md R40, 93_implementation_defined.md U1; log 7). -/
def blkByte (s : State) (a : Nat) : Byte :=
  match Memory.lookup a s.blk with
  | some v => v
  | none => Config.freeByte s.draws a

/-- `x[BLK i]` (00_scope.md R13). -/
def readBlk (s : State) (i : Nat) : Block := ofBytes fun k => blkByte s (blkOffset i k)

/-- The memory after a bus write of `d` at window offset `a` of the block buffer (20_memory.md R57). -/
def Memory.writeWord (a : Nat) (d : Word32) (m : Memory) : Memory :=
  Memory.write (a + 3) (laneOf d 3) (Memory.write (a + 2) (laneOf d 2)
    (Memory.write (a + 1) (laneOf d 1) (Memory.write a (laneOf d 0) m)))

/-! ### The table (10_state.md R41) -/

/-- `TblRead(k)` for `1 ≤ k ≤ 8` (00_scope.md R13). DESIGN CHOICE (log 17): slot 0 and the slots above 8, which the spec
does not have and no rule reads, read as 0. -/
def Table.slot (t : Table) (k : Nat) : Poly :=
  match k with
  | 0 => 0
  | j + 1 => t.toList.getD j 0

/-- `TblWrite(k, v)` for `1 ≤ k ≤ 8` (00_scope.md R13). DESIGN CHOICE (log 17): a write to slot 0 or a slot above 8, which
the spec does not have and no rule writes, changes nothing. -/
def Table.setSlot (t : Table) (k : Nat) (v : Poly) : Table :=
  match k with
  | 0 => t
  | j + 1 => t.setIfInBounds j v

end Sys2Proof.Machine
end

