-- ==== Sys2Proof/Machine/Ops.lean ====
section
/-! DEFINITION. The shared operations: recording an error (the block's only exception) and clearing it, and the
protocol of every command, its issue and its completion (60_exceptions.md R222, R230; 40_command_issue.md
R101 to R103). -/

namespace Sys2Proof.Machine

open Sys2Proof

/-! ### Errors -/

/-- raise CmdError(code), and the recording step of WRITE_BUSY (60_exceptions.md R222): the first error is kept, a
later one sets ERR_MULTI. -/
def raiseError (e : CmdError) (s : State) : State :=
  if s.status.err then { s with status := { s.status with errMulti := true } }
  else { s with status := { s.status with err := true, errCode := errorCode e } }

/-- The return: a host write of `d` to STATUS acts through the W1C bits 1 and 2 only (60_exceptions.md R230). -/
def clearStatus (d : Word32) (s : State) : State :=
  let st : Status := if d.getLsbD 1 then { s.status with done := false } else s.status
  { s with
    status := if d.getLsbD 2 then { st with err := false, errMulti := false, errCode := 0 } else st }

/-! ### Issue -/

/-- The acceptances that invalidate the table: a BUILD, and a NORM of HKEY with CTRL.REV = 1 (40_command_issue.md
R102, 10_state.md R33). -/
def invalidatesTable (i : Instr) (rev : Bool) : Bool :=
  match i with
  | .nop => false
  | .mul => false
  | .build _ => true
  | .auth _ => false
  | .norm rsel => regOfRsel rsel = some .hkey && rev

/-- accept(r) (40_command_issue.md R102). -/
def accept (i : Instr) (s : State) : State :=
  { s with
    pend := some ⟨i, s.rev⟩
    status := { s.status with
      done := false
      tblPowers := if invalidatesTable i s.rev then 0 else s.status.tblPowers } }

/-- An AUTH with at least one block needs a table (40_command_issue.md R101, 43_authenticator.md R170). -/
def needsTable (i : Instr) : Bool :=
  match i with
  | .nop => false
  | .mul => false
  | .build _ => false
  | .auth len => 0 < wholeBlocks len
  | .norm _ => false

/-- What follows the decoding of the fields in a CMD write to an idle engine: the operand error, NO_TABLE, or
acceptance (40_command_issue.md R101, 30_encoding.md R84). -/
def issue (i : Instr) (s : State) : State :=
  match operandError i with
  | some e => raiseError e s
  | none => if needsTable i && s.status.tblPowers == 0 then raiseError .noTable s else accept i s

/-! ### Completion -/

/-- C0, C1 and C2 between commands: unspecified, so a free value of degree at most 126 (10_state.md R39; log 10). -/
def freePartials (draw : Nat) : Partials :=
  ⟨(Config.freePartial draw 0).setWidth 128, (Config.freePartial draw 1).setWidth 128,
    (Config.freePartial draw 2).setWidth 128⟩

/-- The protocol part of a completion (40_command_issue.md R103): pend becomes none, and with it BUSY 0 (R30), and
DONE 1. -/
def complete (s : State) : State :=
  { s with
    pend := none
    status := { s.status with done := true }
    parts := freePartials s.draws
    draws := s.draws + 1 }

/-- The engine's step on command `i` (log 1, 18). When no command is pending this is the issue of `i` (40_command_issue.md
R101, R102). When one is pending it is the completion of `i`: its Effect, given rev_s, and then the protocol's
updates (R103). -/
def commandStep (i : Instr) (effect : Bool → State → State) (s : State) :
    Host.Outcome State Fault Refusal :=
  match s.pend with
  | none => .next (issue i s)
  | some p => .next (complete (effect p.revS s))

end Sys2Proof.Machine
end

