-- ==== Sys2Proof/Machine/Auth.lean ====
section
/-! DEFINITION. AUTH (43_authenticator.md R171, R172). -/

namespace Sys2Proof.Machine

open Sys2Proof

/-- Block `j` of a group as it enters the multiplier: the group's first block takes the accumulator `x`
(43_authenticator.md R171). -/
def groupOperand (blk : Nat → Block) (x : Poly) (i j : Nat) : Poly :=
  if j = 0 then fe (blk i) ^^^ x else fe (blk (i + j))

/-- C0, C1, C2 after the first `count` blocks of a group of `g` blocks from block `i` on: block `j` meets H^(g-j)
(43_authenticator.md R171). -/
def groupSums (blk : Nat → Block) (slot : Nat → Poly) (x : Poly) (i g : Nat) : (count : Nat) → Partials
  | 0 => ⟨0, 0, 0⟩
  | j + 1 =>
    let c := groupSums blk slot x i g j
    let d := groupOperand blk x i j
    let p := slot (g - j)
    ⟨c.c0 ^^^ partialHH d p, c.c1 ^^^ partialX d p, c.c2 ^^^ partialLL d p⟩

/-- GROUP(X, i, g): the sums of the group and its one reduction (43_authenticator.md R171). -/
def groupFold (blk : Nat → Block) (slot : Nat → Poly) (x : Poly) (i g : Nat) : Poly :=
  let c := groupSums blk slot x i g g
  reduce c.c0 c.c1 c.c2

/-- The loop of R172 over the groups of at most `n` blocks, from block `i` to block `s`. Each round consumes at least
one block when `n` is not 0, so `s` rounds of fuel are enough. -/
def authGroups (blk : Nat → Block) (slot : Nat → Poly) (n s : Nat) : (fuel i : Nat) → Poly → Poly
  | 0, _, x => x
  | fuel + 1, i, x =>
    if i < s then
      let g := min (s - i) n
      authGroups blk slot n s fuel (i + g) (groupFold blk slot x i g)
    else x

/-- Effect(AUTH): fold LEN div 16 blocks of BLK into ACC, and REMAIN (43_authenticator.md R172). -/
def authEffect (len : BitVec 8) (s : State) : State :=
  let count := wholeBlocks len
  let x := authGroups (readBlk s) (Table.slot s.tbl) s.powers count count 0 (fe s.regs.acc)
  { s.setReg .acc (bytesOf x) with
    remain := ⟨BitVec.ofNat 4 (trailingBytes len), BitVec.ofNat 8 (16 * count)⟩ }

/-- AUTH (43_authenticator.md R172). -/
def execAuth (len : BitVec 8) (s : State) : Host.Outcome State Fault Refusal :=
  commandStep (.auth len) (fun _ => authEffect len) s

end Sys2Proof.Machine
end

