-- ==== Sys2Proof/Machine/Build.lean ====
section
/-! DEFINITION. BUILD (42_table_builder.md R151). -/

namespace Sys2Proof.Machine

open Sys2Proof

/-- The loop of R151: `count` slots from slot `k` on, slot `k` taking `p` and each later one the product with `h`. -/
def buildSlots (h : Poly) : (count k : Nat) → (p : Poly) → Table → Table
  | 0, _, _, t => t
  | count + 1, k, p, t => buildSlots h count (k + 1) (fieldMul p h) (Table.setSlot t k p)

/-- Effect(BUILD): TBL[k] <- H^k for k = 1 to n = LEN div 16, TBL_POWERS <- n (42_table_builder.md R151). -/
def buildEffect (len : BitVec 8) (s : State) : State :=
  let n := wholeBlocks len
  let h := fe s.regs.hkey
  { s with
    tbl := buildSlots h n 1 h s.tbl
    status := { s.status with tblPowers := BitVec.ofNat 4 n } }

/-- BUILD (42_table_builder.md R151). -/
def execBuild (len : BitVec 8) (s : State) : Host.Outcome State Fault Refusal :=
  commandStep (.build len) (fun _ => buildEffect len) s

end Sys2Proof.Machine
end

