-- ==== Sys2Proof/Machine/Mul.lean ====
section
/-! DEFINITION. MUL (41_field_primitive.md R127). -/

namespace Sys2Proof.Machine

open Sys2Proof

/-- Effect(MUL): RES <- A ⊗ B (41_field_primitive.md R127). -/
def mulEffect (s : State) : State := s.setReg .res (gfmul s.regs.a s.regs.b)

/-- MUL (41_field_primitive.md R127). -/
def execMul (s : State) : Host.Outcome State Fault Refusal :=
  commandStep .mul (fun _ => mulEffect) s

end Sys2Proof.Machine
end

