-- ==== Sys2Proof/Machine/Nop.lean ====
section
/-! DEFINITION. NOP (40_command_issue.md R105). -/

namespace Sys2Proof.Machine

open Sys2Proof

/-- Effect(NOP) changes nothing (40_command_issue.md R105). -/
def nopEffect (s : State) : State := s

/-- NOP (40_command_issue.md R105). -/
def execNop (s : State) : Host.Outcome State Fault Refusal :=
  commandStep .nop (fun _ => nopEffect) s

end Sys2Proof.Machine
end

