-- ==== Sys2Proof/Machine/Norm.lean ====
section
/-! DEFINITION. NORM (44_normalizer.md R200). -/

namespace Sys2Proof.Machine

open Sys2Proof

/-- Effect(NORM): the register RSEL names, byte-reversed if rev_s = 1 (44_normalizer.md R200). -/
def normEffect (rsel : BitVec 4) (revS : Bool) (s : State) : State :=
  match regOfRsel rsel with
  | some r => if revS then s.setReg r (rev16 (s.regs.read r)) else s
  | none => s

/-- NORM (44_normalizer.md R200). -/
def execNorm (rsel : BitVec 4) (s : State) : Host.Outcome State Fault Refusal :=
  commandStep (.norm rsel) (normEffect rsel) s

end Sys2Proof.Machine
end

