-- ==== Sys2Proof/Machine/Dispatch.lean ====
section
/-! DEFINITION. One arm per command (30_encoding.md R82). -/

namespace Sys2Proof.Machine

open Sys2Proof

def exec (i : Instr) (s : State) : Host.Outcome State Fault Refusal :=
  match i with
  | .nop => Sys2Proof.Machine.execNop s
  | .mul => Sys2Proof.Machine.execMul s
  | .build len => Sys2Proof.Machine.execBuild len s
  | .auth len => Sys2Proof.Machine.execAuth len s
  | .norm rsel => Sys2Proof.Machine.execNorm rsel s

end Sys2Proof.Machine
end

