-- ==== Sys2Proof/Machine/Bus.lean ====
section
/-! DEFINITION. The host's bus transactions and the reset input (10_state.md R36; 20_memory.md R53 to R60;
40_command_issue.md R101; 70_reset_and_hazards.md R260, R261). -/

namespace Sys2Proof.Machine

open Sys2Proof

/-! ### The window (10_state.md R36) -/

/-- What an aligned word access at a window offset reaches. -/
inductive Target where
  | id | cap | ctrl | status | cmd | remain
  | reserved
  /-- Word `j` of a data register. -/
  | data (r : DataReg) (j : Nat)
  /-- The word of the block buffer at window offset `a`. -/
  | blk (a : Nat)
  deriving DecidableEq, Repr

/-- The register map (10_state.md R36), for aligned offsets below WINDOW_BYTES: each 128-bit register is one row of 16
bytes, the control registers share the first two. -/
def target (o : Nat) : Target :=
  match o / 16 with
  | 0 => match o / 4 with | 0 => .id | 1 => .cap | 2 => .ctrl | _ => .status
  | 1 => match o / 4 with | 4 => .cmd | 5 => .remain | _ => .reserved
  | 2 => .data .a (o / 4 % 4)
  | 3 => .data .b (o / 4 % 4)
  | 4 => .data .res (o / 4 % 4)
  | 5 => .data .acc (o / 4 % 4)
  | 6 => .data .hkey (o / 4 % 4)
  | 7 => .reserved
  | _ => .blk o

/-- The offset is inside the window (20_memory.md R50, R53). -/
def inWindow (off : Int) : Bool := 0 ≤ off && off < (Config.windowBytes : Int)

/-- A legal transaction is aligned and transfers all four byte lanes (20_memory.md R56). -/
def legal (t : BusTransaction) : Bool := t.off.toNat % 4 == 0 && t.strobes == 0xF

/-! ### BusRead (20_memory.md R58) -/

/-- The registers a pending command writes, its outputs (20_memory.md R58). -/
def isOutput (p : Pending) (t : Target) : Bool :=
  match p.instr with
  | .nop => false
  | .mul => match t with | .data .res _ => true | _ => false
  | .build _ => false
  | .auth _ => match t with | .data .acc _ => true | .remain => true | _ => false
  | .norm rsel => match t with | .data r _ => regOfRsel rsel = some r | _ => false

/-- The value BusRead returns in the step whose draw number is `s.draws` (20_memory.md R58): an output of the pending
command is a fresh free value (93_implementation_defined.md U4; log 8). -/
def readTarget (t : Target) (s : State) : Word32 :=
  if s.pend.any (isOutput · t) then wordOfLanes (Config.freeByte s.draws)
  else
    match t with
    | .id => idWord
    | .cap => capWord
    | .ctrl => ctrlWord s
    | .status => statusWord s
    | .cmd => 0
    | .remain => remainWord s
    | .reserved => 0
    | .data r j => wordOf (s.regs.read r) j
    | .blk a => wordOfLanes fun b => blkByte s (a + b)

/-- BusRead(o): the host gets the value, nothing else changes (20_memory.md R58, R60). -/
def busRead (o : Nat) (s : State) : State :=
  { s with rdata := some (readTarget (target o) s), draws := s.draws + 1 }

/-! ### BusWrite (20_memory.md R57, R59) -/

/-- A data write: dropped with WRITE_BUSY while a command is pending (20_memory.md R59, 60_exceptions.md R223). -/
def guardedWrite (write : State → State) (s : State) : State :=
  if s.busy then raiseError .writeBusy s else write s

/-- A change of HKEY invalidates the table (10_state.md R37, R33). -/
def clearPowers (s : State) : State := { s with status := { s.status with tblPowers := 0 } }

/-- The bus write of `d` to word `j` of a data register (20_memory.md R57). -/
def writeRegWord (r : DataReg) (j : Nat) (d : Word32) (s : State) : State :=
  s.setReg r (withWord (s.regs.read r) j d)

/-- The bus write of `d` to the block buffer at window offset `a` (20_memory.md R57). -/
def writeBlkWord (a : Nat) (d : Word32) (s : State) : State :=
  { s with blk := Memory.writeWord a d s.blk }

/-- A CMD write, handled in one step (40_command_issue.md R101): CMD_BUSY without decoding, the errors of the opcode
and the reserved bits, and then the command's own step, which checks its operand and the table. -/
def presentCommand (d : Word32) (s : State) : Host.Outcome State Fault Refusal :=
  if s.busy then .next (raiseError .cmdBusy s)
  else
    match decodeFields d with
    | .error e => .next (raiseError e s)
    | .ok i => exec i s

/-- BusWrite(o, d) (20_memory.md R57, R59). -/
def writeTarget (t : Target) (d : Word32) (s : State) : Host.Outcome State Fault Refusal :=
  match t with
  | .id => .next s
  | .cap => .next s
  | .ctrl => .next { s with ctrl := d.extractLsb' 0 3 }
  | .status => .next (clearStatus d s)
  | .cmd => presentCommand d s
  | .remain => .next s
  | .reserved => .next s
  | .data .a j => .next (guardedWrite (writeRegWord .a j d) s)
  | .data .b j => .next (guardedWrite (writeRegWord .b j d) s)
  | .data .res _ => .next s
  | .data .acc j => .next (guardedWrite (writeRegWord .acc j d) s)
  | .data .hkey j => .next (guardedWrite (fun s => clearPowers (writeRegWord .hkey j d s)) s)
  | .blk a => .next (guardedWrite (writeBlkWord a d) s)

/-! ### Steps -/

/-- A host step: one bus transaction (20_memory.md R53, R56 to R59; 70_reset_and_hazards.md R260). -/
def hostStep (t : BusTransaction) (s : State) : Host.Outcome State Fault Refusal :=
  if s.inReset then .fault .heldInReset
  else if inWindow t.off then
    if legal t then
      match t.access with
      | .read => .next (busRead t.off.toNat s)
      | .write d => writeTarget (target t.off.toNat) d s
    else .fault .busFault
  else .refused .outsideWindow

/-- An engine step completes the pending command (40_command_issue.md R103); with none pending the engine does nothing
(log 3). -/
def engineStep (s : State) : Host.Outcome State Fault Refusal :=
  match s.pend with
  | some p => exec p.instr s
  | none => .next s

/-- The reset input is asserted: the pending command is abandoned and every piece of state takes its reset value, held
until the input is released (70_reset_and_hazards.md R260, R261; log 6). The steps to come and the draw number are
not the block's. -/
def enterReset (s : State) : State :=
  { State.reset with inReset := true, inputs := s.inputs, draws := s.draws }

/-- The reset input is released: the block is ready (70_reset_and_hazards.md R260). -/
def leaveReset (s : State) : State := { s with inReset := false }

/-- One step of the agent whose turn it is (20_memory.md R62). -/
def inputStep (i : Input) (s : State) : Host.Outcome State Fault Refusal :=
  match i with
  | .bus t => hostStep t s
  | .engine => engineStep s
  | .assertReset => .next (enterReset s)
  | .releaseReset => .next (leaveReset s)

/-- The state a step starts its work in: the steps after this one are to come, and no read data is on the bus. -/
def turn (rest : List Input) (s : State) : State := { s with inputs := rest, rdata := none }

end Sys2Proof.Machine
end

