-- ==== Sys2Proof/Machine/HostProgram.lean ====
section
/-! DEFINITION. The host program syntax (30_encoding.md R88, R89): each line as the steps it stands for. -/

namespace Sys2Proof.Machine

open Sys2Proof

/-- `off(R)`: the window offset of a data register (10_state.md R36). -/
def regOffset : DataReg → Nat
  | .a => 0x20
  | .b => 0x30
  | .res => 0x40
  | .acc => 0x50
  | .hkey => 0x60

/-- The register names that `wr128` and `rd128` accept: the five data registers and BLK[0..7] (30_encoding.md R89). -/
inductive HostReg where
  | data (r : DataReg)
  | blk (i : Fin 8)
  deriving DecidableEq, Repr

/-- `off(reg)`: the window offset of a register that `wr128` or `rd128` names (10_state.md R36). -/
def hostOffset : HostReg → Nat
  | .data r => regOffset r
  | .blk i => blkOffset i 0

/-- `wr32 off, d`. -/
def wr32 (off : Nat) (d : Word32) : Input := .bus ⟨(off : Int), 0xF, .write d⟩

/-- `rd32 off`. Its value `v` is what the step leaves in `rdata`. -/
def rd32 (off : Nat) : Input := .bus ⟨(off : Int), 0xF, .read⟩

/-- A bus transaction at an absolute bus address (20_memory.md R50; log 5). -/
def busAt (addr : Nat) (strobes : BitVec 4) (access : Access) : Input :=
  .bus ⟨Config.offsetOf addr, strobes, access⟩

/-- `wr128 reg, bytes …`: `wr32 off(reg)+4j, w_j` for j = 0, 1, 2, 3. -/
def wr128 (r : HostReg) (v : Block) : List Input :=
  (List.range 4).map fun j => wr32 (hostOffset r + 4 * j) (wordOf v j)

/-- `rd128 reg`: `rd32 off(reg)+4j` for j = 0, 1, 2, 3. The string it names is `readString`. -/
def rd128 (r : HostReg) : List Input :=
  (List.range 4).map fun j => rd32 (hostOffset r + 4 * j)

/-- `wrblk i, bytes …` is `wr128 BLK[i], …`. -/
def wrblk (i : Fin 8) (v : Block) : List Input := wr128 (.blk i) v

/-- `issue command`: a write of its word to CMD. -/
def issueLine (i : Instr) : Input := wr32 0x10 (encode i)

/-- `wait`: STATUS is read until BUSY = 0. The engine completes after `polls` reads that see BUSY = 1, so a program
that waits is one list for each number of polls (70_reset_and_hazards.md R276; log 15). -/
def waitLine (polls : Nat) : List Input := List.replicate polls (rd32 0x0C) ++ [.engine, rd32 0x0C]

/-- `clrst`: clears DONE, ERR and ERR_MULTI. -/
def clrst : Input := wr32 0x0C 0x0000000E

end Sys2Proof.Machine
end

