-- ==== Sys2Proof/Machine/Step.lean ====
section
/-! DEFINITION. One step of the machine (20_memory.md R62, 40_command_issue.md R103). -/

namespace Sys2Proof.Machine

open Sys2Proof

/-- One step: the next of the steps to come, and the engine's turn when none is left (70_reset_and_hazards.md R276:
a pending command completes; log 1, 3). -/
def step (s : State) : Host.Outcome State Fault Refusal :=
  match s.inputs with
  | i :: rest => inputStep i (turn rest s)
  | [] => engineStep (turn [] s)

/-- The state whose very next step is the host's CMD write of the command word `w` to an idle engine (log 2). -/
def State.withFetchWord (s : State) (nbits w : Nat) : State :=
  { s with inputs := wr32 0x10 (tableWord nbits w) :: s.inputs, pend := none, inReset := false }

end Sys2Proof.Machine
end

