-- ==== Sys2Proof/Machine/HostRead.lean ====
section
/-! DEFINITION. The values the reads of a host program name (30_encoding.md R89): what `rd32` and `rd128` return. -/

namespace Sys2Proof.Machine

open Sys2Proof

/-- The values of the next `n` steps, each of which must be a bus read that returns a word, and the state after them. -/
def readWords : (n : Nat) → State → Option (List Word32 × State)
  | 0, s => some ([], s)
  | n + 1, s =>
    match step s with
    | .next t =>
      match t.rdata, readWords n t with
      | some w, some (ws, u) => some (w :: ws, u)
      | _, _ => none
    | .fault _ => none
    | .refused _ => none

/-- The value of `rd128`: the words of its four reads, reassembled into a byte string by 20_memory.md R55, and the state
after them (30_encoding.md R89). -/
def readString (s : State) : Option (Block × State) :=
  match readWords 4 s with
  | some (ws, t) => some (ofWords fun j => ws.getD j 0, t)
  | none => none

end Sys2Proof.Machine
end

