-- ==== Sys2Proof/Safety.lean ====
section
/-! DEFINITION. The terms claims are stated in: the reference functions of the spec (41_field_primitive.md R125;
42_table_builder.md R152; 43_authenticator.md R173), the Effect of any command as one function, and the invariant
that every step keeps. -/

namespace Sys2Proof.Machine

open Sys2Proof

/-! ### Reference functions -/

/-- The constant R of the bit-serial multiplication: bytes e1 00…00 (41_field_primitive.md R125). -/
def serialConstant : Block := 0xe1000000000000000000000000000000

/-- Z and V after the first `i` rounds of the bit-serial multiplication (41_field_primitive.md R125). Bit `i` of a
string is counted from the most significant bit of byte 0. -/
def serialRounds (x y : Block) : Nat → Block × Block
  | 0 => (0, y)
  | i + 1 =>
    let (z, v) := serialRounds x y i
    (if x.getMsbD i then z ^^^ v else z,
      if v.getMsbD 127 then v >>> 1 ^^^ serialConstant else v >>> 1)

/-- The bit-serial product of NIST SP 800-38D Algorithm 1 (41_field_primitive.md R125). -/
def serialProduct (x y : Block) : Block := (serialRounds x y 128).1

/-- H^(k+1): H multiplied by itself, `k` products (42_table_builder.md R152). -/
def selfProduct (h : Block) : (k : Nat) → Block
  | 0 => h
  | k + 1 => gfmul (selfProduct h k) h

/-- The sequential GHASH update of an accumulator over blocks (43_authenticator.md R173): each block in turn is added
and the sum multiplied by H. -/
def sequentialGhash (h x : Block) (blocks : List Block) : Block :=
  blocks.foldl (fun y b => gfmul (y ^^^ b) h) x

/-- A state whose table holds the powers of `h` in slots 1 to `n` (10_state.md R41). -/
def tableHolds (h : Block) (n : Nat) (t : Table) : Prop :=
  ∀ k, 1 ≤ k → k ≤ n → Table.slot t k = fe (selfProduct h (k - 1))

/-- AUTH commands complete one after the other, each in the state and with the LEN given for it, on valid tables of one
subkey `h`, the first from accumulator `x`, each later one from what the one before left, and the last leaves `y`
(43_authenticator.md R174). -/
def chunkedAuths (h : Block) (x : Block) : (chunks : List (State × BitVec 8)) → (y : Block) → Prop
  | [], y => y = x
  | (s, len) :: chunks, y =>
    s.regs.acc = x ∧ s.regs.hkey = h ∧ len.toNat ≤ 143 ∧ s.powers ∈ [2, 4, 6, 8] ∧ tableHolds h s.powers s.tbl ∧
      (∃ rev, s.pend = some ⟨.auth len, rev⟩) ∧
      ∃ t, exec (.auth len) s = .next t ∧ chunkedAuths h t.regs.acc chunks y

/-- The blocks that AUTHs take, in message order (43_authenticator.md R172). -/
def chunkBlocks (chunks : List (State × BitVec 8)) : List Block :=
  chunks.flatMap fun c => (List.range (wholeBlocks c.2)).map (readBlk c.1)

/-! ### The Effect of a command (40_command_issue.md R103) -/

/-- Effect of each command, given rev_s. -/
def effectOf (i : Instr) (revS : Bool) : State → State :=
  match i with
  | .nop => nopEffect
  | .mul => mulEffect
  | .build len => buildEffect len
  | .auth len => authEffect len
  | .norm rsel => normEffect rsel revS

/-- The state with the error of a code recorded and nothing else changed (60_exceptions.md R222): the first code is
kept, a later one sets ERR_MULTI. -/
def recorded (code : BitVec 4) (s : State) : State :=
  { s with status := { s.status with
      err := true
      errMulti := s.status.errMulti || s.status.err
      errCode := if s.status.err then s.status.errCode else code } }

/-! ### The invariant -/

/-- What STATUS's error fields may hold together (10_state.md R32, 60_exceptions.md R220, R222): no error recorded and
both fields clear, or an error recorded with one of the codes 1 to 8. -/
def errorFieldsLegal (st : Status) : Prop :=
  if st.err then 1 ≤ st.errCode.toNat ∧ st.errCode.toNat ≤ 8 else st.errCode = 0 ∧ st.errMulti = false

/-- What holds of STATUS and the pending command together: its operand is legal, DONE is 0 (40_command_issue.md R102),
the table is invalid if the command invalidates it (42_table_builder.md R150, 44_normalizer.md R201) and valid if it
reads it (43_authenticator.md R170). -/
def pendingLegal (p : Pending) (st : Status) : Prop :=
  p.instr.wellFormed ∧ st.done = false ∧
    (invalidatesTable p.instr p.revS → st.tblPowers = 0) ∧ (needsTable p.instr → st.tblPowers ≠ 0)

/-- The invariant of the block. -/
structure State.Inv (s : State) : Prop where
  /-- The block buffer's memory has its canonical form. -/
  blk_wf : Memory.wf s.blk = true
  /-- TBL_POWERS is 0, 2, 4, 6 or 8 (10_state.md R33). -/
  powers_legal : s.powers ∈ [0, 2, 4, 6, 8]
  errors_legal : errorFieldsLegal s.status
  /-- CONSUMED is a multiple of 16, at most 128 (10_state.md R35). -/
  consumed_legal : s.remain.consumed.toNat % 16 = 0 ∧ s.remain.consumed.toNat ≤ 128
  /-- C0, C1 and C2 have degree at most 126 (10_state.md R39). -/
  parts_bounded : s.parts.c0.getLsbD 127 = false ∧ s.parts.c1.getLsbD 127 = false ∧ s.parts.c2.getLsbD 127 = false
  /-- A valid table holds the powers of HKEY as it stands (10_state.md R41, 42_table_builder.md R151). -/
  table_valid : tableHolds s.regs.hkey s.powers s.tbl
  pending_legal : ∀ p, s.pend = some p → pendingLegal p s.status
  /-- While reset is asserted, everything the spec gives a reset value has it (10_state.md R44, 70_reset_and_hazards.md
  R260). -/
  reset_held : s.inReset = true → s.regs = ⟨0, 0, 0, 0, 0⟩ ∧ s.blk = [] ∧ s.ctrl = 0 ∧
    s.status = ⟨false, false, false, 0, 0⟩ ∧ s.remain = ⟨0, 0⟩ ∧ s.pend = none

end Sys2Proof.Machine
end

