-- ==== Sys2Proof/Certificates/Slice0/Obligations.lean ====
section
/-! DEFINITION. The statements for the provers, from the numbered rules of spec/. -/

open Sys2Proof Sys2Proof.Machine

/-! ## Encoding -/

/-- 30_encoding.md R83, R84, R87, R88: decoding the word of a command with a legal operand gives the command back. -/
def Obligations.DecodeOfEncodeIsTheCommand : Prop :=
  ∀ i : Instr, i.wellFormed = true → decode (encode i) = .ok i

/-- 30_encoding.md R83, R86, R87: each command has one word, and a word that decodes has a legal operand. -/
def Obligations.DecodedWordIsTheEncoding : Prop :=
  ∀ (d : Word32) (i : Instr), decode d = .ok i → encode i = d ∧ i.wellFormed = true

/-- 30_encoding.md R87 with the tables of R83 and R84: decoding is total, the opcode is checked first, then the bits
outside the operand, then the operand. -/
def Obligations.DecodingIsTotalInPriorityOrder : Prop :=
  ∀ d : Word32,
    let opc := d.toNat % 0x100
    let rsel := d.toNat / 0x100 % 0x10
    let rsv0 := d.toNat / 0x1000 % 0x10
    let len := d.toNat / 0x10000 % 0x100
    let rsv1 := d.toNat / 0x1000000
    (5 ≤ opc → decode d = .error .illegalOpcode) ∧
    (opc < 5 → (rsv0 ≠ 0 ∨ rsv1 ≠ 0 ∨ (opc ≠ 4 ∧ rsel ≠ 0) ∨ (opc ≠ 2 ∧ opc ≠ 3 ∧ len ≠ 0)) →
      decode d = .error .reservedNonzero) ∧
    (rsv0 = 0 → rsv1 = 0 → (opc ≠ 4 → rsel = 0) → (opc ≠ 2 → opc ≠ 3 → len = 0) →
      (opc = 0 → decode d = .ok .nop) ∧
      (opc = 1 → decode d = .ok .mul) ∧
      (opc = 2 → decode d = if len = 32 ∨ len = 64 ∨ len = 96 ∨ len = 128
        then .ok (.build (BitVec.ofNat 8 len)) else .error .badSize) ∧
      (opc = 3 → decode d = if len ≤ 143 then .ok (.auth (BitVec.ofNat 8 len)) else .error .badLen) ∧
      (opc = 4 → decode d = if rsel ≤ 4 then .ok (.norm (BitVec.ofNat 4 rsel)) else .error .badRsel))

/-- 30_encoding.md R88: the words of its examples and of NOP and MUL decode to the commands they stand for. -/
def Obligations.KnownCommandWordsDecode : Prop :=
  decode 0x00000000 = .ok .nop ∧ decode 0x00000001 = .ok .mul ∧ decode 0x00800002 = .ok (.build 128) ∧
    decode 0x00200003 = .ok (.auth 32) ∧ decode 0x00550003 = .ok (.auth 85) ∧
    decode 0x00000304 = .ok (.norm 3) ∧ decode 0x00000404 = .ok (.norm 4)

/-! ## Steps run commands -/

/-- 40_command_issue.md R101: when the host's next transaction writes to CMD a word that decodes, and no command is
pending, the step is exec of the command. The second clause says the same of the model's withFetchWord. -/
def Obligations.StepIssuesTheDecodedCommand : Prop :=
  (∀ (s : State) (d : Word32) (i : Instr) (rest : List Input),
    s.inputs = wr32 0x10 d :: rest → s.inReset = false → s.pend = none → decode d = .ok i →
      step s = exec i (turn rest s)) ∧
  (∀ (s : State) (i : Instr), i.wellFormed = true →
    step (s.withFetchWord 32 (encode i).toNat) =
      exec i (turn s.inputs { s with pend := none, inReset := false }))

/-- 40_command_issue.md R103: when it is the engine's turn, the step is exec of the pending command. That it is the
engine's turn when no input is left is the model's choice (log 3). -/
def Obligations.StepCompletesThePendingCommand : Prop :=
  ∀ (s : State) (p : Pending) (rest : List Input),
    s.pend = some p → (s.inputs = .engine :: rest ∨ (s.inputs = [] ∧ rest = [])) →
      step s = exec p.instr (turn rest s)

/-! ## Issue -/

/-- 40_command_issue.md R102, with the conditions of R101: an idle engine accepts every command with a legal operand
(an AUTH of a block or more only with a valid table), and nothing else changes than pend, DONE and, for BUILD and
for NORM of HKEY with REV = 1, TBL_POWERS. STATUS.BUSY, the view of pend, becomes 1. -/
def Obligations.AcceptanceMakesTheCommandPending : Prop :=
  ∀ (i : Instr) (s : State), s.pend = none → i.wellFormed = true →
    (∀ len, i = .auth len → 16 ≤ len.toNat → s.status.tblPowers ≠ 0) →
      ∃ t, exec i s = .next t ∧ t.busy = true ∧
        t = { s with
          pend := some ⟨i, s.ctrl.getLsbD 0⟩
          status := { s.status with
            done := false
            tblPowers := match i with
              | .nop => s.status.tblPowers
              | .mul => s.status.tblPowers
              | .build _ => 0
              | .auth _ => s.status.tblPowers
              | .norm rsel => if rsel = 4 ∧ s.ctrl.getLsbD 0 = true then 0 else s.status.tblPowers } }

/-- 30_encoding.md R84: an illegal operand is rejected with BAD_SIZE (4), BAD_LEN (5) or BAD_RSEL (3) and nothing else
changes. -/
def Obligations.IllegalOperandIsRejected : Prop :=
  ∀ s : State, s.pend = none →
    (∀ len : BitVec 8, len.toNat ∉ [32, 64, 96, 128] → exec (.build len) s = .next (recorded 4 s)) ∧
    (∀ len : BitVec 8, 143 < len.toNat → exec (.auth len) s = .next (recorded 5 s)) ∧
    (∀ rsel : BitVec 4, 4 < rsel.toNat → exec (.norm rsel) s = .next (recorded 3 s))

/-- 43_authenticator.md R170: an AUTH of at least one block without a table is rejected with NO_TABLE (6). Without a
block it is accepted: see AcceptanceMakesTheCommandPending. -/
def Obligations.AuthWithoutTableIsRejected : Prop :=
  ∀ (len : BitVec 8) (s : State), s.pend = none → s.status.tblPowers = 0 → 16 ≤ len.toNat → len.toNat ≤ 143 →
    exec (.auth len) s = .next (recorded 6 s)

/-- 30_encoding.md R85 to R87, 60_exceptions.md R220: a CMD write of a word that does not decode is rejected with its
error's code. -/
def Obligations.UndecodableWordIsRejected : Prop :=
  ∀ (s : State) (d : Word32) (rest : List Input),
    s.inputs = wr32 0x10 d :: rest → s.inReset = false → s.pend = none →
      (decode d = .error .illegalOpcode → step s = .next (recorded 1 (turn rest s))) ∧
      (decode d = .error .reservedNonzero → step s = .next (recorded 2 (turn rest s))) ∧
      (decode d = .error .badRsel → step s = .next (recorded 3 (turn rest s))) ∧
      (decode d = .error .badSize → step s = .next (recorded 4 (turn rest s))) ∧
      (decode d = .error .badLen → step s = .next (recorded 5 (turn rest s)))

/-- 40_command_issue.md R101: a CMD write while a command is pending is rejected with CMD_BUSY (7), whatever the word;
the pending command is untouched. -/
def Obligations.CmdWriteWhileBusyIsRejected : Prop :=
  ∀ (s : State) (d : Word32) (rest : List Input) (p : Pending),
    s.inputs = wr32 0x10 d :: rest → s.inReset = false → s.pend = some p →
      step s = .next (recorded 7 (turn rest s))

/-- 40_command_issue.md R104: a CMD write that accepts no command changes nothing but ERR, ERR_MULTI and ERR_CODE. -/
def Obligations.RejectedCommandChangesOnlyErrorFields : Prop :=
  ∀ (s s' : State) (d : Word32) (rest : List Input),
    s.inputs = wr32 0x10 d :: rest → step s = .next s' → s'.pend = s.pend →
      ∃ code, s' = recorded code (turn rest s)

/-- 60_exceptions.md R221: no word written to CMD stops the block, and after one turn of the engine no command is
pending, whatever the word and the state. Where the word was rejected with nothing pending, that the engine's turn
answers a next state is the model's choice (log 3). -/
def Obligations.NoCommandWordStopsTheBlock : Prop :=
  ∀ (s : State) (d : Word32) (rest : List Input),
    s.inputs = wr32 0x10 d :: .engine :: rest → s.inReset = false →
      ∃ t u, step s = .next t ∧ step t = .next u ∧ u.pend = none ∧ u.inputs = rest

/-! ## Errors and the interrupt -/

/-- 60_exceptions.md R222: the recording of one error in any state, and after any sequence of rejections ERR_CODE names
the first since ERR was clear and ERR_MULTI says whether there were more; nothing else changes. -/
def Obligations.FirstErrorIsKept : Prop :=
  (∀ (s : State) (e : CmdError), raiseError e s =
    { s with status :=
        if s.status.err then { s.status with errMulti := true }
        else { s.status with err := true, errCode := errorCode e } }) ∧
  (∀ (s : State) (e : CmdError) (es : List CmdError), s.status.err = false → s.status.errMulti = false →
    (e :: es).foldl (fun t e => raiseError e t) s =
      { s with status := { s.status with err := true, errCode := errorCode e, errMulti := !es.isEmpty } })

/-- 60_exceptions.md R220: the codes of the errors. -/
def Obligations.ErrorCodesAreTheTables : Prop :=
  errorCode .illegalOpcode = 0x1 ∧ errorCode .reservedNonzero = 0x2 ∧ errorCode .badRsel = 0x3 ∧
    errorCode .badSize = 0x4 ∧ errorCode .badLen = 0x5 ∧ errorCode .noTable = 0x6 ∧
    errorCode .cmdBusy = 0x7 ∧ errorCode .writeBusy = 0x8

/-- 60_exceptions.md R230: a write to STATUS clears DONE through bit 1 and ERR, ERR_MULTI and ERR_CODE through bit 2,
whether or not a command is pending; nothing else changes, and irq follows. -/
def Obligations.StatusWriteClearsThroughW1CBits : Prop :=
  ∀ (s : State) (d : Word32) (rest : List Input),
    s.inputs = wr32 0x0C d :: rest → s.inReset = false →
      ∃ t, step s = .next t ∧
        t = { turn rest s with status := { s.status with
          done := s.status.done && !d.getLsbD 1
          err := s.status.err && !d.getLsbD 2
          errMulti := s.status.errMulti && !d.getLsbD 2
          errCode := if d.getLsbD 2 then 0 else s.status.errCode } } ∧
        t.irq = ((s.status.done && !d.getLsbD 1 && s.ctrl.getLsbD 1) ||
          (s.status.err && !d.getLsbD 2 && s.ctrl.getLsbD 2))

/-- 10_state.md R43: irq from the bits of STATUS and CTRL as the host reads them; 0 after reset. -/
def Obligations.InterruptFollowsStatusAndCtrl : Prop :=
  (∀ s : State, s.irq =
    ((statusWord s).getLsbD 1 && (ctrlWord s).getLsbD 1 || (statusWord s).getLsbD 2 && (ctrlWord s).getLsbD 2)) ∧
  State.reset.irq = false

/-! ## Completion: what each command does

In each, C0, C1 and C2 (`parts`) are unspecified between commands (10_state.md R39) and `draws` is the model's own. -/

/-- 40_command_issue.md R105 and R103: NOP completes and changes nothing but BUSY (through pend) and DONE. -/
def Obligations.NopCompletes : Prop :=
  ∀ (s : State) (rev : Bool), s.pend = some ⟨.nop, rev⟩ →
    ∃ parts draws, exec .nop s = .next { s with
      pend := none
      status := { s.status with done := true }
      parts := parts
      draws := draws }

/-- 41_field_primitive.md R127 and 40_command_issue.md R103: MUL completes with RES = GFMUL(A, B) and changes no other
register, flag or memory than BUSY and DONE. -/
def Obligations.MulCompletesWithTheProduct : Prop :=
  ∀ (s : State) (rev : Bool), s.pend = some ⟨.mul, rev⟩ →
    ∃ parts draws, exec .mul s = .next { s with
      regs := { s.regs with res := gfmul s.regs.a s.regs.b }
      pend := none
      status := { s.status with done := true }
      parts := parts
      draws := draws }

/-- 42_table_builder.md R151 and 40_command_issue.md R103: BUILD completes with slots 1 to n = LEN div 16 holding H^1 to
H^n and TBL_POWERS = n; the other slots, and everything but BUSY and DONE, are unchanged. -/
def Obligations.BuildCompletesWithThePowers : Prop :=
  ∀ (s : State) (len : BitVec 8) (rev : Bool), s.pend = some ⟨.build len, rev⟩ → len.toNat ∈ [32, 64, 96, 128] →
    ∃ tbl parts draws,
      exec (.build len) s = .next { s with
        tbl := tbl
        pend := none
        status := { s.status with done := true, tblPowers := BitVec.ofNat 4 (len.toNat / 16) }
        parts := parts
        draws := draws } ∧
      ∀ k, 1 ≤ k → k ≤ 8 →
        Table.slot tbl k = if k ≤ len.toNat / 16 then fe (selfProduct s.regs.hkey (k - 1)) else Table.slot s.tbl k

/-- 43_authenticator.md R172 and R175, 40_command_issue.md R103: AUTH completes with ACC as the loop over groups of
R171 and R172 leaves it and REMAIN = (LEN mod 16, 16·(LEN div 16)); everything else but BUSY and DONE is unchanged. -/
def Obligations.AuthCompletesWithTheGroupFold : Prop :=
  ∀ (s : State) (len : BitVec 8) (rev : Bool), s.pend = some ⟨.auth len, rev⟩ → len.toNat ≤ 143 →
    (16 ≤ len.toNat → s.status.tblPowers ≠ 0) →
    ∃ parts draws, exec (.auth len) s = .next { s with
      regs := { s.regs with acc := bytesOf (authGroups (readBlk s) (Table.slot s.tbl) s.status.tblPowers.toNat
        (len.toNat / 16) (len.toNat / 16) 0 (fe s.regs.acc)) }
      remain := ⟨BitVec.ofNat 4 (len.toNat % 16), BitVec.ofNat 8 (16 * (len.toNat / 16))⟩
      pend := none
      status := { s.status with done := true }
      parts := parts
      draws := draws }

/-- 44_normalizer.md R200 and 40_command_issue.md R103: NORM completes; with rev_s = 1 byte k of the register RSEL names
becomes its old byte 15 - k, with rev_s = 0 it stays; the other registers, and everything but BUSY and DONE, are
unchanged. -/
def Obligations.NormCompletesWithTheReversal : Prop :=
  ∀ (s : State) (r : DataReg) (rev : Bool),
    let rsel : BitVec 4 := match r with | .a => 0 | .b => 1 | .res => 2 | .acc => 3 | .hkey => 4
    s.pend = some ⟨.norm rsel, rev⟩ →
    ∃ regs parts draws,
      exec (.norm rsel) s = .next { s with
        regs := regs
        pend := none
        status := { s.status with done := true }
        parts := parts
        draws := draws } ∧
      (rev = false → regs = s.regs) ∧
      (rev = true → ∀ k, k < 16 → byteOf (regs.read r) k = byteOf (s.regs.read r) (15 - k)) ∧
      (∀ r', r' ≠ r → regs.read r' = s.regs.read r')

/-- 44_normalizer.md R203: two NORMs of one register with the same rev_s leave the data registers as they were. -/
def Obligations.NormTwiceRestoresTheRegister : Prop :=
  ∀ (s t t' u : State) (rsel : BitVec 4) (rev : Bool),
    s.pend = some ⟨.norm rsel, rev⟩ → exec (.norm rsel) s = .next t →
    t'.pend = some ⟨.norm rsel, rev⟩ → t'.regs = t.regs → exec (.norm rsel) t' = .next u →
      u.regs = s.regs

/-! ## The field -/

/-- 00_scope.md R10: the bits of fe, and its inverse. -/
def Obligations.FieldElementViewMapsTheBits : Prop :=
  (∀ (r : Block) (i : Nat), i < 128 → (fe r).getLsbD i = (byteOf r (i / 8)).getLsbD (7 - i % 8)) ∧
    (∀ r : Block, bytesOf (fe r) = r) ∧ (∀ p : Poly, fe (bytesOf p) = p)

/-- 41_field_primitive.md R121: the coefficients of the carry-less product. -/
def Obligations.CarrylessProductCoefficients : Prop :=
  ∀ a b : Half,
    (∀ k, k ≤ 126 → (clmul64 a b).getLsbD k =
      (List.range' (k - 63) (min k 63 + 1 - (k - 63))).foldl
        (fun x i => x ^^ (a.getLsbD i && b.getLsbD (k - i))) false) ∧
    (clmul64 a b).getLsbD 127 = false

/-- 00_scope.md R12: the field product is the product of polynomials over GF(2) modulo x^128 + x^7 + x^2 + x + 1; the
element 0 is bytes 00…00 and the identity is bytes 80 00…00. -/
def Obligations.FieldProductIsProductModuloG : Prop :=
  let poly : Poly → Polynomial (ZMod 2) := fun p =>
    ∑ i ∈ Finset.range 128, if p.getLsbD i then (Polynomial.X : Polynomial (ZMod 2)) ^ i else 0
  let g : Polynomial (ZMod 2) := Polynomial.X ^ 128 + Polynomial.X ^ 7 + Polynomial.X ^ 2 + Polynomial.X + 1
  (∀ a b : Poly, poly (fieldMul a b) = (poly a * poly b).modByMonic g) ∧
    poly (fe 0x00000000000000000000000000000000) = 0 ∧ poly (fe 0x80000000000000000000000000000000) = 1

/-- 41_field_primitive.md R120: the laws of the field product. -/
def Obligations.FieldProductLaws : Prop :=
  (∀ a b : Poly, fieldMul a b = fieldMul b a) ∧
    (∀ a b c : Poly, fieldMul (fieldMul a b) c = fieldMul a (fieldMul b c)) ∧
    (∀ a b c : Poly, fieldMul a (b ^^^ c) = fieldMul a b ^^^ fieldMul a c) ∧
    (∀ a : Poly, fieldMul (fe 0x80000000000000000000000000000000) a = a) ∧
    (∀ a : Poly, fieldMul a 0 = 0)

/-- 41_field_primitive.md R125: a pending MUL completes with RES equal to the bit-serial product of NIST SP 800-38D
Algorithm 1. -/
def Obligations.MulEqualsTheBitSerialProduct : Prop :=
  ∀ (s : State) (rev : Bool), s.pend = some ⟨.mul, rev⟩ →
    ∃ t, exec .mul s = .next t ∧ t.regs.res = serialProduct s.regs.a s.regs.b

/-- 43_authenticator.md R173: with a valid table of any size, a pending AUTH completes with ACC equal to the sequential
GHASH update X <- (X ⊕ B) ⊗ H over its LEN div 16 blocks, however they fall into groups. -/
def Obligations.AuthEqualsSequentialGhash : Prop :=
  ∀ (s : State) (len : BitVec 8) (rev : Bool), s.pend = some ⟨.auth len, rev⟩ → len.toNat ≤ 143 →
    (16 ≤ len.toNat → s.status.tblPowers ≠ 0) → s.powers ≤ 8 → tableHolds s.regs.hkey s.powers s.tbl →
      ∃ t, exec (.auth len) s = .next t ∧
        t.regs.acc = sequentialGhash s.regs.hkey s.regs.acc ((List.range (len.toNat / 16)).map (readBlk s))

/-- 43_authenticator.md R174 for two chunks of at most 8 blocks in all: an AUTH of the blocks of two AUTHs, run one after
the other on tables of the same H and of any sizes, leaves the same ACC as the two. For chunks of any number, see
ChunkingLeavesTheSequentialGhash. -/
def Obligations.AuthSplitsAtBlockBoundaries : Prop :=
  ∀ (s s₁ s₂ t₁ t₂ : State) (len len₁ len₂ : BitVec 8) (rev rev₁ rev₂ : Bool),
    s.pend = some ⟨.auth len, rev⟩ → s₁.pend = some ⟨.auth len₁, rev₁⟩ → s₂.pend = some ⟨.auth len₂, rev₂⟩ →
    len.toNat ≤ 143 → len.toNat / 16 = len₁.toNat / 16 + len₂.toNat / 16 →
    (∀ x ∈ [s, s₁, s₂], x.regs.hkey = s.regs.hkey ∧ x.powers ∈ [2, 4, 6, 8] ∧
      tableHolds s.regs.hkey x.powers x.tbl) →
    (∀ i, i < len₁.toNat / 16 → readBlk s i = readBlk s₁ i) →
    (∀ i, i < len₂.toNat / 16 → readBlk s (len₁.toNat / 16 + i) = readBlk s₂ i) →
    s₁.regs.acc = s.regs.acc → exec (.auth len₁) s₁ = .next t₁ →
    s₂.regs.acc = t₁.regs.acc → exec (.auth len₂) s₂ = .next t₂ →
      ∃ t, exec (.auth len) s = .next t ∧ t.regs.acc = t₂.regs.acc

/-! ## Bus reads -/

/-- 20_memory.md R58, R60 and 10_state.md R26 to R29, R34, R35: a read of an aligned offset of the window answers a
next state in which nothing but the model's own fields changed, and returns the constants, the control registers'
fields with reserved bits 0, and 0 at CMD and the reserved offsets. REMAIN is an output of a pending AUTH. -/
def Obligations.ControlRegistersReadTheirFields : Prop :=
  ∀ (s : State) (o : Nat) (rest : List Input),
    s.inputs = rd32 o :: rest → s.inReset = false → o < 0x100 → o % 4 = 0 →
      ∃ v draws, step s = .next { turn rest s with rdata := some v, draws := draws } ∧
        (o = 0x00 → v = 0x47434D31) ∧
        (o = 0x04 → v = 0x00010808) ∧
        (o = 0x08 → v.toNat = s.ctrl.toNat) ∧
        (o = 0x0C → v.toNat = s.pend.isSome.toNat + 2 * s.status.done.toNat + 4 * s.status.err.toNat +
          8 * s.status.errMulti.toNat + 0x100 * s.status.errCode.toNat + 0x10000 * s.status.tblPowers.toNat) ∧
        (o = 0x10 → v = 0) ∧
        (o = 0x14 → (∀ len rev, s.pend ≠ some ⟨.auth len, rev⟩) →
          v.toNat = s.remain.rem.toNat + 0x100 * s.remain.consumed.toNat) ∧
        (o ∈ [0x18, 0x1C, 0x70, 0x74, 0x78, 0x7C] → v = 0)

/-- 20_memory.md R55: with no command pending, the word at off(R) + 4j carries bytes 4j to 4j+3 of R in little-endian
lanes. -/
def Obligations.RegisterWordReadsLittleEndianLanes : Prop :=
  ∀ (s : State) (r : DataReg) (j : Nat) (rest : List Input),
    s.inputs = rd32 (regOffset r + 4 * j) :: rest → s.inReset = false → s.pend = none → j < 4 →
      ∃ v draws, step s = .next { turn rest s with rdata := some v, draws := draws } ∧
        v.toNat = (byteOf (s.regs.read r) (4 * j)).toNat + 0x100 * (byteOf (s.regs.read r) (4 * j + 1)).toNat +
          0x10000 * (byteOf (s.regs.read r) (4 * j + 2)).toNat +
          0x1000000 * (byteOf (s.regs.read r) (4 * j + 3)).toNat

/-- 20_memory.md R58 (which draw it is: log 8, 11): while a command is pending, a word of a register it writes reads
as a fresh free value (MUL: RES; AUTH: ACC and REMAIN; NORM: the register RSEL names), and a word of another register
reads its bytes (R55). -/
def Obligations.PendingOutputReadsAFreeValue : Prop :=
  ∀ (s : State) (p : Pending) (rest : List Input), s.pend = some p → s.inReset = false →
    (∀ r j, j < 4 → s.inputs = rd32 (regOffset r + 4 * j) :: rest →
      let output : Bool := match p.instr with
        | .nop => false
        | .mul => r = .res
        | .build _ => false
        | .auth _ => r = .acc
        | .norm rsel => regOfRsel rsel = some r
      step s = .next { turn rest s with
        draws := s.draws + 1
        rdata := some (wordOfLanes
          (if output then Config.freeByte s.draws else fun b => byteOf (s.regs.read r) (4 * j + b))) }) ∧
    (∀ len, s.inputs = rd32 0x14 :: rest → p.instr = .auth len →
      step s = .next { turn rest s with
        draws := s.draws + 1, rdata := some (wordOfLanes (Config.freeByte s.draws)) })

/-- 10_state.md R40 (which draw it is: log 7, 11): a word of the block buffer reads the bytes written to it since
reset, and a fresh free value for each byte that was not, whether or not a command is pending; the read changes
nothing but the model's own fields. -/
def Obligations.BlockBufferReadsWrittenBytesOrDraws : Prop :=
  ∀ (s : State) (o : Nat) (rest : List Input),
    s.inputs = rd32 o :: rest → s.inReset = false → 0x80 ≤ o → o < 0x100 → o % 4 = 0 →
      ∃ v, step s = .next { turn rest s with rdata := some v, draws := s.draws + 1 } ∧
        ∀ b, b < 4 → laneOf v b = (Memory.lookup (o + b) s.blk).getD (Config.freeByte s.draws (o + b))

/-! ## Bus writes -/

/-- 10_state.md R28 and 20_memory.md R59: a write to CTRL takes bits 2 to 0 and changes nothing else, while a command
is pending too, whose sampled REV stays (R42, 70_reset_and_hazards.md R273). -/
def Obligations.CtrlWriteTakesThreeBits : Prop :=
  ∀ (s : State) (d : Word32) (rest : List Input),
    s.inputs = wr32 0x08 d :: rest → s.inReset = false →
      ∃ c, step s = .next { turn rest s with ctrl := c } ∧ c.toNat = d.toNat % 8

/-- 20_memory.md R57: with no command pending, a write to word j of A, B or ACC replaces bytes 4j to 4j+3 by the lanes
of the data and changes nothing else. -/
def Obligations.DataWordWriteReplacesFourBytes : Prop :=
  ∀ (s : State) (r : DataReg) (j : Nat) (d : Word32) (rest : List Input),
    s.inputs = wr32 (regOffset r + 4 * j) d :: rest → s.inReset = false → s.pend = none → j < 4 →
    r = .a ∨ r = .b ∨ r = .acc →
      ∃ v, step s = .next { turn rest s with regs := s.regs.write r v } ∧
        ∀ k, k < 16 → byteOf v k = if k / 4 = j then laneOf d (k % 4) else byteOf (s.regs.read r) k

/-- 10_state.md R37 and 20_memory.md R57: with no command pending, a write to a word of HKEY replaces its four bytes and
invalidates the table; nothing else changes. -/
def Obligations.HkeyWriteInvalidatesTheTable : Prop :=
  ∀ (s : State) (j : Nat) (d : Word32) (rest : List Input),
    s.inputs = wr32 (0x60 + 4 * j) d :: rest → s.inReset = false → s.pend = none → j < 4 →
      ∃ v, step s = .next { turn rest s with
          regs := { s.regs with hkey := v }, status := { s.status with tblPowers := 0 } } ∧
        ∀ k, k < 16 → byteOf v k = if k / 4 = j then laneOf d (k % 4) else byteOf s.regs.hkey k

/-- 20_memory.md R57: with no command pending, a write to the block buffer stores the four lanes at the four offsets of
the word; every other byte, written or not, and everything else is unchanged. -/
def Obligations.BlockBufferWriteStoresFourBytes : Prop :=
  ∀ (s : State) (o : Nat) (d : Word32) (rest : List Input),
    s.inputs = wr32 o d :: rest → s.inReset = false → s.pend = none → 0x80 ≤ o → o < 0x100 → o % 4 = 0 →
      ∃ blk, step s = .next { turn rest s with blk := blk } ∧
        (∀ b, b < 4 → Memory.lookup (o + b) blk = some (laneOf d b)) ∧
        (∀ a, a < o ∨ o + 4 ≤ a → Memory.lookup a blk = Memory.lookup a s.blk)

/-- 60_exceptions.md R223: while a command is pending, a write to a word of A, B, ACC, HKEY or BLK is dropped and
recorded with code 8; a dropped write to HKEY does not clear TBL_POWERS. -/
def Obligations.DataWriteWhileBusyIsDropped : Prop :=
  ∀ (s : State) (o : Nat) (d : Word32) (rest : List Input) (p : Pending),
    s.inputs = wr32 o d :: rest → s.inReset = false → s.pend = some p → o % 4 = 0 →
    (0x20 ≤ o ∧ o < 0x40) ∨ (0x50 ≤ o ∧ o < 0x70) ∨ (0x80 ≤ o ∧ o < 0x100) →
      step s = .next (recorded 8 (turn rest s))

/-- 20_memory.md R53, R57, R59: a write to ID, CAP, REMAIN, RES or a reserved offset changes nothing, busy or not. -/
def Obligations.ReadOnlyWritesAreIgnored : Prop :=
  ∀ (s : State) (o : Nat) (d : Word32) (rest : List Input),
    s.inputs = wr32 o d :: rest → s.inReset = false → o % 4 = 0 →
    o < 0x08 ∨ (0x14 ≤ o ∧ o < 0x20) ∨ (0x40 ≤ o ∧ o < 0x50) ∨ (0x70 ≤ o ∧ o < 0x80) →
      step s = .next (turn rest s)

/-- 70_reset_and_hazards.md R275, 20_memory.md R62: a write is seen by the very next read: with no command pending, after
a write to a word of A, B, ACC, HKEY or BLK, a read of that offset returns the data. 20_memory.md R57, R58: a read of
any other aligned offset but STATUS (an HKEY write clears TBL_POWERS) returns what it would have returned. For a BLK
byte not written since reset, which the spec leaves to a fresh draw, that the two reads draw the same value is the
model's choice: a write does not advance the draws (log 7, 11). -/
def Obligations.WriteIsSeenByTheNextReadOnly : Prop :=
  ∀ (s : State) (o o' : Nat) (d : Word32) (rest : List Input),
    s.inputs = wr32 o d :: rd32 o' :: rest → s.inReset = false → s.pend = none → o % 4 = 0 →
    (0x20 ≤ o ∧ o < 0x40) ∨ (0x50 ≤ o ∧ o < 0x70) ∨ (0x80 ≤ o ∧ o < 0x100) → o' % 4 = 0 → o' < 0x100 →
      ∃ t u v, step s = .next t ∧ step t = .next u ∧ step { s with inputs := rd32 o' :: rest } = .next v ∧
        (o' = o → u.rdata = some d) ∧ (o' ≠ o → o' ≠ 0x0C → u.rdata = v.rdata)

/-- 30_encoding.md R89: the four writes of wr128 leave the register holding the string, or RES as it was, which the host
cannot write (10_state.md R22, R24). -/
def Obligations.FourWritesLoadARegister : Prop :=
  ∀ (s : State) (r : DataReg) (v : Block) (rest : List Input),
    s.inputs = wr128 (.data r) v ++ rest → s.inReset = false → s.pend = none →
      ∃ t, Host.Core.run core 4 s = .next t ∧ t.inputs = rest ∧ t.pend = none ∧
        (r ≠ .res → t.regs = s.regs.write r v) ∧ (r = .res → t.regs = s.regs)

/-- 20_memory.md R56, 60_exceptions.md R225: a misaligned or partial access inside the window is a BusFault. -/
def Obligations.MisalignedOrPartialAccessFaults : Prop :=
  ∀ (s : State) (t : BusTransaction) (rest : List Input),
    s.inputs = .bus t :: rest → s.inReset = false → 0 ≤ t.off → t.off < 0x100 →
    t.off % 4 ≠ 0 ∨ t.strobes ≠ 0xF → step s = .fault .busFault

/-- 20_memory.md R53, 93_implementation_defined.md U6, log 5: an access at a bus address outside BASE to BASE + 0xFF is
refused, and one at BASE + o is the access at window offset o. -/
def Obligations.OnlyTheWindowReachesTheBlock : Prop :=
  ∀ (s : State) (addr : Nat) (strobes : BitVec 4) (access : Access) (rest : List Input),
    s.inputs = busAt addr strobes access :: rest → s.inReset = false →
      (addr < Config.base ∨ Config.base + 0x100 ≤ addr → step s = .refused .outsideWindow) ∧
      (∀ o : Nat, o < 0x100 → addr = Config.base + o →
        step s = step { s with inputs := .bus ⟨(o : Int), strobes, access⟩ :: rest })

/-! ## Reset -/

/-- 10_state.md R44: the values the spec gives for reset; no byte of BLK has a value. -/
def Obligations.ResetValuesAreTheTables : Prop :=
  State.reset.regs = ⟨0, 0, 0, 0, 0⟩ ∧ (∀ a, Memory.lookup a State.reset.blk = none) ∧
    idWord = 0x47434D31 ∧ capWord = 0x00010808 ∧ ctrlWord State.reset = 0x00000000 ∧
    statusWord State.reset = 0x00000000 ∧ remainWord State.reset = 0x00000000 ∧
    State.reset.pend = none ∧ State.reset.irq = false

/-- 70_reset_and_hazards.md R260, R261 (reset as two steps: log 6): after reset is asserted and released, in any
state, a pending command is gone without its Effect and every piece of state the spec gives a reset value has it. -/
def Obligations.ResetAbandonsThePendingCommand : Prop :=
  ∀ (s : State) (rest : List Input), s.inputs = .assertReset :: .releaseReset :: rest →
    ∃ t u, step s = .next t ∧ step t = .next u ∧ u.regs = ⟨0, 0, 0, 0, 0⟩ ∧
      (∀ a, Memory.lookup a u.blk = none) ∧ u.ctrl = 0 ∧ statusWord u = 0 ∧ remainWord u = 0 ∧ u.pend = none ∧
      u.irq = false ∧ u.inReset = false ∧ u.inputs = rest

/-- 70_reset_and_hazards.md R260, 93_implementation_defined.md U7: while reset is asserted no bus transaction is
accepted; the fault is the model's form of it (log 6). -/
def Obligations.NoBusTransactionDuringReset : Prop :=
  ∀ (s : State) (t : BusTransaction) (rest : List Input),
    s.inputs = .bus t :: rest → s.inReset = true → step s = .fault .heldInReset

/-! ## Whole-machine rules -/

/-- 10_state.md R33, R35, R39, R41, 60_exceptions.md R220, R222: every step keeps the invariant of the block; above
all, a valid table always holds the powers of HKEY as it stands. That the reset values hold from the assertion of
reset on is the model's choice (log 6). -/
def Obligations.EveryStepKeepsTheInvariant : Prop :=
  ∀ s s' : State, s.Inv → step s = .next s' → s'.Inv

/-- 10_state.md R44: the state right after reset meets the invariant. -/
def Obligations.ResetStateMeetsTheInvariant : Prop := State.reset.Inv

/-- 42_table_builder.md R154: only the completion of a BUILD changes TBL (and reset, whose TBL the spec leaves
unspecified: log 9). -/
def Obligations.OnlyBuildChangesTheTable : Prop :=
  ∀ s s' : State, step s = .next s' → s'.tbl ≠ s.tbl →
    (∃ len rev, s.pend = some ⟨.build len, rev⟩ ∧ s'.pend = none) ∨ s'.inReset = true

/-- 10_state.md R33: the events that change TBL_POWERS, and what they write. That reset makes it 0 when it is asserted,
before its release, is the model's choice (log 6). -/
def Obligations.TblPowersHasFourWriters : Prop :=
  ∀ s s' : State, step s = .next s' → s'.status.tblPowers ≠ s.status.tblPowers →
    (∃ len rev, s.pend = some ⟨.build len, rev⟩ ∧ s'.pend = none ∧
      s'.status.tblPowers = BitVec.ofNat 4 (len.toNat / 16)) ∨
    (s'.status.tblPowers = 0 ∧
      ((s.pend = none ∧ ∃ len rev, s'.pend = some ⟨.build len, rev⟩) ∨
        (s.pend = none ∧ s.ctrl.getLsbD 0 = true ∧ s'.pend = some ⟨.norm 4, true⟩) ∨
        (s.pend = none ∧ ∃ j d rest, j < 4 ∧ s.inputs = wr32 (0x60 + 4 * j) d :: rest) ∨
        s'.inReset = true))

/-- 10_state.md R35: only the completion of an AUTH writes REMAIN, and reset clears it. That reset makes it 0 when it is
asserted, before its release, is the model's choice (log 6). -/
def Obligations.OnlyAuthWritesRemain : Prop :=
  ∀ s s' : State, step s = .next s' → s'.remain ≠ s.remain →
    (∃ len rev, s.pend = some ⟨.auth len, rev⟩ ∧ s'.pend = none ∧
      s'.remain = ⟨BitVec.ofNat 4 (len.toNat % 16), BitVec.ofNat 8 (16 * (len.toNat / 16))⟩) ∨
    (s'.inReset = true ∧ s'.remain = ⟨0, 0⟩)

/-- 40_command_issue.md R106: a pending command stays pending, unchanged, through every host transaction; it ends only
by its completion in an engine step, which sets DONE, or by reset. That a step with no input left is an engine step
(log 3), and that reset abandons the command when it is asserted (log 6), are the model's choices. -/
def Obligations.OnlyCompletionOrResetEndsACommand : Prop :=
  ∀ (s s' : State) (p : Pending), s.pend = some p → step s = .next s' →
    s'.pend = some p ∨
    (s'.pend = none ∧ s'.status.done = true ∧ (s.inputs = [] ∨ s.inputs.head? = some .engine)) ∨
    (s'.pend = none ∧ s'.inReset = true ∧ s.inputs.head? = some .assertReset)

/-- 20_memory.md R63, 30_encoding.md R89: a host that waits on BUSY = 0 sees a pending command complete: whatever the
number of polls before the engine's turn, the last poll reads BUSY = 0 and DONE = 1 and no command is pending. The wait
as a list of inputs is the model's (log 15). -/
def Obligations.WaitingHostSeesTheCompletion : Prop :=
  ∀ (polls : Nat) (s : State) (p : Pending) (rest : List Input),
    s.inputs = waitLine polls ++ rest → s.inReset = false → s.pend = some p →
      ∃ t v, Host.Core.run core (polls + 2) s = .next t ∧ t.pend = none ∧ t.inputs = rest ∧
        t.rdata = some v ∧ v.getLsbD 0 = false ∧ v.getLsbD 1 = true

/-- 60_exceptions.md R224: a completion and the rejection of a CMD word that does not decode may come in either order;
either way STATUS ends with DONE from the completion and ERR from the rejection, no command is pending, and the
registers, the table, REMAIN and the block buffer are the same. For a pending AUTH over BLK bytes not written since
reset, which the spec leaves to a draw, that ACC is the same in both orders is the model's choice: a CMD write does not
advance the draws (log 7, 11). For a word rejected with NO_TABLE, see CompletionAndNoTableComeInEitherOrder. -/
def Obligations.CompletionAndRejectionComeInEitherOrder : Prop :=
  ∀ (s : State) (p : Pending) (d : Word32) (e : CmdError) (rest : List Input),
    s.inReset = false → s.pend = some p → decode d = .error e →
      ∃ t u, Host.Core.run core 2 { s with inputs := wr32 0x10 d :: .engine :: rest } = .next t ∧
        Host.Core.run core 2 { s with inputs := .engine :: wr32 0x10 d :: rest } = .next u ∧
        t.status.done = true ∧ u.status.done = true ∧ t.status.err = true ∧ u.status.err = true ∧
        t.pend = none ∧ u.pend = none ∧ t.regs = u.regs ∧ t.tbl = u.tbl ∧ t.remain = u.remain ∧ t.blk = u.blk

/-! ## Strings on the bus, and messages of any length -/

/-- 30_encoding.md R89: the four writes of wr128 BLK[i] (and so of wrblk) store the 16 bytes of the string; every other
byte of the buffer, written or not, and everything else is unchanged. -/
def Obligations.FourWritesLoadABlock : Prop :=
  ∀ (s : State) (i : Fin 8) (v : Block) (rest : List Input),
    s.inputs = wr128 (.blk i) v ++ rest → s.inReset = false → s.pend = none →
      ∃ blk, Host.Core.run core 4 s = .next { turn rest s with blk := blk } ∧
        (∀ k, k < 16 → Memory.lookup (blkOffset i k) blk = some (byteOf v k)) ∧
        (∀ a, a < blkOffset i 0 ∨ blkOffset i 0 + 16 ≤ a → Memory.lookup a blk = Memory.lookup a s.blk)

/-- 30_encoding.md R89, 20_memory.md R55: with no command pending, rd128 of a data register returns its byte string,
and rd128 of BLK[i] its bytes written since reset and a free value for each other byte (10_state.md R40; log 7, 11);
the reads change nothing but the model's own fields. -/
def Obligations.FourReadsReturnTheString : Prop :=
  ∀ (s : State) (r : HostReg) (rest : List Input),
    s.inputs = rd128 r ++ rest → s.inReset = false → s.pend = none →
      ∃ v rdata draws, readString s = some (v, { turn rest s with rdata := rdata, draws := draws }) ∧
        (∀ reg, r = .data reg → v = s.regs.read reg) ∧
        (∀ i, r = .blk i → ∀ k, k < 16 → byteOf v k =
          (Memory.lookup (blkOffset i k) s.blk).getD (Config.freeByte (s.draws + k / 4) (blkOffset i k)))

/-- 43_authenticator.md R174: however a block sequence of any length is split into AUTHs, each on a valid table of the
same H of any size, the last ACC is the same, and it is the sequential GHASH of the whole sequence (R173). -/
def Obligations.ChunkingLeavesTheSequentialGhash : Prop :=
  ∀ (h x y₁ y₂ : Block) (chunks₁ chunks₂ : List (State × BitVec 8)),
    chunkBlocks chunks₁ = chunkBlocks chunks₂ → chunkedAuths h x chunks₁ y₁ → chunkedAuths h x chunks₂ y₂ →
      y₁ = y₂ ∧ y₁ = sequentialGhash h x (chunkBlocks chunks₁)

/-- 60_exceptions.md R224 for a word rejected with NO_TABLE: with a command pending that builds no table and
TBL_POWERS 0, the completion and the rejection of an AUTH of a block or more may come in either order. Either way
STATUS ends with DONE from the completion and ERR from the rejection; from a clear ERR its code is CMD_BUSY (7) if the
write came before the completion and NO_TABLE (6) if it came after. A pending AUTH has no block then
(43_authenticator.md R170), so no draw is involved. -/
def Obligations.CompletionAndNoTableComeInEitherOrder : Prop :=
  ∀ (s : State) (p : Pending) (d : Word32) (len : BitVec 8) (rest : List Input),
    s.inReset = false → s.pend = some p → (∀ l, p.instr ≠ .build l) → s.status.tblPowers = 0 →
    (∀ l, p.instr = .auth l → l.toNat < 16) → decode d = .ok (.auth len) → 16 ≤ len.toNat →
      ∃ t u, Host.Core.run core 2 { s with inputs := wr32 0x10 d :: .engine :: rest } = .next t ∧
        Host.Core.run core 2 { s with inputs := .engine :: wr32 0x10 d :: rest } = .next u ∧
        t.status.done = true ∧ u.status.done = true ∧ t.status.err = true ∧ u.status.err = true ∧
        (s.status.err = false → t.status.errCode = 7 ∧ u.status.errCode = 6) ∧
        t.pend = none ∧ u.pend = none ∧ t.regs = u.regs ∧ t.tbl = u.tbl ∧ t.remain = u.remain ∧ t.blk = u.blk
end

