-- ==== Sys2Proof/Laws/State.lean ====
section
/-! SUPPORT. One lemma per field per update of State, so that no later proof unfolds a record update. -/

namespace Sys2Proof.Machine

open Sys2Proof

/-! ### A data register write -/

@[simp] theorem setReg_regs (s : State) (r : DataReg) (v : Block) : (s.setReg r v).regs = s.regs.write r v := rfl
@[simp] theorem setReg_blk (s : State) (r : DataReg) (v : Block) : (s.setReg r v).blk = s.blk := rfl
@[simp] theorem setReg_ctrl (s : State) (r : DataReg) (v : Block) : (s.setReg r v).ctrl = s.ctrl := rfl
@[simp] theorem setReg_status (s : State) (r : DataReg) (v : Block) : (s.setReg r v).status = s.status := rfl
@[simp] theorem setReg_remain (s : State) (r : DataReg) (v : Block) : (s.setReg r v).remain = s.remain := rfl
@[simp] theorem setReg_tbl (s : State) (r : DataReg) (v : Block) : (s.setReg r v).tbl = s.tbl := rfl
@[simp] theorem setReg_pend (s : State) (r : DataReg) (v : Block) : (s.setReg r v).pend = s.pend := rfl
@[simp] theorem setReg_parts (s : State) (r : DataReg) (v : Block) : (s.setReg r v).parts = s.parts := rfl
@[simp] theorem setReg_inReset (s : State) (r : DataReg) (v : Block) : (s.setReg r v).inReset = s.inReset := rfl
@[simp] theorem setReg_inputs (s : State) (r : DataReg) (v : Block) : (s.setReg r v).inputs = s.inputs := rfl
@[simp] theorem setReg_rdata (s : State) (r : DataReg) (v : Block) : (s.setReg r v).rdata = s.rdata := rfl
@[simp] theorem setReg_draws (s : State) (r : DataReg) (v : Block) : (s.setReg r v).draws = s.draws := rfl

/-! ### Acceptance (40_command_issue.md R102) -/

@[simp] theorem accept_regs (i : Instr) (s : State) : (accept i s).regs = s.regs := rfl
@[simp] theorem accept_blk (i : Instr) (s : State) : (accept i s).blk = s.blk := rfl
@[simp] theorem accept_ctrl (i : Instr) (s : State) : (accept i s).ctrl = s.ctrl := rfl
@[simp] theorem accept_status (i : Instr) (s : State) :
    (accept i s).status = { s.status with done := false, tblPowers := if invalidatesTable i s.rev then 0 else s.status.tblPowers } := rfl
@[simp] theorem accept_remain (i : Instr) (s : State) : (accept i s).remain = s.remain := rfl
@[simp] theorem accept_tbl (i : Instr) (s : State) : (accept i s).tbl = s.tbl := rfl
@[simp] theorem accept_pend (i : Instr) (s : State) : (accept i s).pend = some ⟨i, s.rev⟩ := rfl
@[simp] theorem accept_parts (i : Instr) (s : State) : (accept i s).parts = s.parts := rfl
@[simp] theorem accept_inReset (i : Instr) (s : State) : (accept i s).inReset = s.inReset := rfl
@[simp] theorem accept_inputs (i : Instr) (s : State) : (accept i s).inputs = s.inputs := rfl
@[simp] theorem accept_rdata (i : Instr) (s : State) : (accept i s).rdata = s.rdata := rfl
@[simp] theorem accept_draws (i : Instr) (s : State) : (accept i s).draws = s.draws := rfl

/-! ### The protocol part of a completion (40_command_issue.md R103) -/

@[simp] theorem complete_regs (s : State) : (complete s).regs = s.regs := rfl
@[simp] theorem complete_blk (s : State) : (complete s).blk = s.blk := rfl
@[simp] theorem complete_ctrl (s : State) : (complete s).ctrl = s.ctrl := rfl
@[simp] theorem complete_status (s : State) : (complete s).status = { s.status with done := true } := rfl
@[simp] theorem complete_remain (s : State) : (complete s).remain = s.remain := rfl
@[simp] theorem complete_tbl (s : State) : (complete s).tbl = s.tbl := rfl
@[simp] theorem complete_pend (s : State) : (complete s).pend = none := rfl
@[simp] theorem complete_parts (s : State) : (complete s).parts = freePartials s.draws := rfl
@[simp] theorem complete_inReset (s : State) : (complete s).inReset = s.inReset := rfl
@[simp] theorem complete_inputs (s : State) : (complete s).inputs = s.inputs := rfl
@[simp] theorem complete_rdata (s : State) : (complete s).rdata = s.rdata := rfl
@[simp] theorem complete_draws (s : State) : (complete s).draws = s.draws + 1 := rfl

/-! ### The invalidation of the table (10_state.md R37) -/

@[simp] theorem clearPowers_regs (s : State) : (clearPowers s).regs = s.regs := rfl
@[simp] theorem clearPowers_blk (s : State) : (clearPowers s).blk = s.blk := rfl
@[simp] theorem clearPowers_ctrl (s : State) : (clearPowers s).ctrl = s.ctrl := rfl
@[simp] theorem clearPowers_status (s : State) : (clearPowers s).status = { s.status with tblPowers := 0 } := rfl
@[simp] theorem clearPowers_remain (s : State) : (clearPowers s).remain = s.remain := rfl
@[simp] theorem clearPowers_tbl (s : State) : (clearPowers s).tbl = s.tbl := rfl
@[simp] theorem clearPowers_pend (s : State) : (clearPowers s).pend = s.pend := rfl
@[simp] theorem clearPowers_parts (s : State) : (clearPowers s).parts = s.parts := rfl
@[simp] theorem clearPowers_inReset (s : State) : (clearPowers s).inReset = s.inReset := rfl
@[simp] theorem clearPowers_inputs (s : State) : (clearPowers s).inputs = s.inputs := rfl
@[simp] theorem clearPowers_rdata (s : State) : (clearPowers s).rdata = s.rdata := rfl
@[simp] theorem clearPowers_draws (s : State) : (clearPowers s).draws = s.draws := rfl

/-! ### A bus write to a data register (20_memory.md R57) -/

@[simp] theorem writeRegWord_regs (r : DataReg) (j : Nat) (d : Word32) (s : State) :
    (writeRegWord r j d s).regs = s.regs.write r (withWord (s.regs.read r) j d) := rfl
@[simp] theorem writeRegWord_blk (r : DataReg) (j : Nat) (d : Word32) (s : State) :
    (writeRegWord r j d s).blk = s.blk := rfl
@[simp] theorem writeRegWord_ctrl (r : DataReg) (j : Nat) (d : Word32) (s : State) :
    (writeRegWord r j d s).ctrl = s.ctrl := rfl
@[simp] theorem writeRegWord_status (r : DataReg) (j : Nat) (d : Word32) (s : State) :
    (writeRegWord r j d s).status = s.status := rfl
@[simp] theorem writeRegWord_remain (r : DataReg) (j : Nat) (d : Word32) (s : State) :
    (writeRegWord r j d s).remain = s.remain := rfl
@[simp] theorem writeRegWord_tbl (r : DataReg) (j : Nat) (d : Word32) (s : State) :
    (writeRegWord r j d s).tbl = s.tbl := rfl
@[simp] theorem writeRegWord_pend (r : DataReg) (j : Nat) (d : Word32) (s : State) :
    (writeRegWord r j d s).pend = s.pend := rfl
@[simp] theorem writeRegWord_parts (r : DataReg) (j : Nat) (d : Word32) (s : State) :
    (writeRegWord r j d s).parts = s.parts := rfl
@[simp] theorem writeRegWord_inReset (r : DataReg) (j : Nat) (d : Word32) (s : State) :
    (writeRegWord r j d s).inReset = s.inReset := rfl
@[simp] theorem writeRegWord_inputs (r : DataReg) (j : Nat) (d : Word32) (s : State) :
    (writeRegWord r j d s).inputs = s.inputs := rfl
@[simp] theorem writeRegWord_rdata (r : DataReg) (j : Nat) (d : Word32) (s : State) :
    (writeRegWord r j d s).rdata = s.rdata := rfl
@[simp] theorem writeRegWord_draws (r : DataReg) (j : Nat) (d : Word32) (s : State) :
    (writeRegWord r j d s).draws = s.draws := rfl

/-! ### A bus write to the block buffer (20_memory.md R57) -/

@[simp] theorem writeBlkWord_regs (a : Nat) (d : Word32) (s : State) : (writeBlkWord a d s).regs = s.regs := rfl
@[simp] theorem writeBlkWord_blk (a : Nat) (d : Word32) (s : State) :
    (writeBlkWord a d s).blk = Memory.writeWord a d s.blk := rfl
@[simp] theorem writeBlkWord_ctrl (a : Nat) (d : Word32) (s : State) : (writeBlkWord a d s).ctrl = s.ctrl := rfl
@[simp] theorem writeBlkWord_status (a : Nat) (d : Word32) (s : State) : (writeBlkWord a d s).status = s.status := rfl
@[simp] theorem writeBlkWord_remain (a : Nat) (d : Word32) (s : State) : (writeBlkWord a d s).remain = s.remain := rfl
@[simp] theorem writeBlkWord_tbl (a : Nat) (d : Word32) (s : State) : (writeBlkWord a d s).tbl = s.tbl := rfl
@[simp] theorem writeBlkWord_pend (a : Nat) (d : Word32) (s : State) : (writeBlkWord a d s).pend = s.pend := rfl
@[simp] theorem writeBlkWord_parts (a : Nat) (d : Word32) (s : State) : (writeBlkWord a d s).parts = s.parts := rfl
@[simp] theorem writeBlkWord_inReset (a : Nat) (d : Word32) (s : State) :
    (writeBlkWord a d s).inReset = s.inReset := rfl
@[simp] theorem writeBlkWord_inputs (a : Nat) (d : Word32) (s : State) : (writeBlkWord a d s).inputs = s.inputs := rfl
@[simp] theorem writeBlkWord_rdata (a : Nat) (d : Word32) (s : State) : (writeBlkWord a d s).rdata = s.rdata := rfl
@[simp] theorem writeBlkWord_draws (a : Nat) (d : Word32) (s : State) : (writeBlkWord a d s).draws = s.draws := rfl

/-! ### A bus read (20_memory.md R58) -/

@[simp] theorem busRead_regs (o : Nat) (s : State) : (busRead o s).regs = s.regs := rfl
@[simp] theorem busRead_blk (o : Nat) (s : State) : (busRead o s).blk = s.blk := rfl
@[simp] theorem busRead_ctrl (o : Nat) (s : State) : (busRead o s).ctrl = s.ctrl := rfl
@[simp] theorem busRead_status (o : Nat) (s : State) : (busRead o s).status = s.status := rfl
@[simp] theorem busRead_remain (o : Nat) (s : State) : (busRead o s).remain = s.remain := rfl
@[simp] theorem busRead_tbl (o : Nat) (s : State) : (busRead o s).tbl = s.tbl := rfl
@[simp] theorem busRead_pend (o : Nat) (s : State) : (busRead o s).pend = s.pend := rfl
@[simp] theorem busRead_parts (o : Nat) (s : State) : (busRead o s).parts = s.parts := rfl
@[simp] theorem busRead_inReset (o : Nat) (s : State) : (busRead o s).inReset = s.inReset := rfl
@[simp] theorem busRead_inputs (o : Nat) (s : State) : (busRead o s).inputs = s.inputs := rfl
@[simp] theorem busRead_rdata (o : Nat) (s : State) : (busRead o s).rdata = some (readTarget (target o) s) := rfl
@[simp] theorem busRead_draws (o : Nat) (s : State) : (busRead o s).draws = s.draws + 1 := rfl

/-! ### The start of a step -/

@[simp] theorem turn_regs (rest : List Input) (s : State) : (turn rest s).regs = s.regs := rfl
@[simp] theorem turn_blk (rest : List Input) (s : State) : (turn rest s).blk = s.blk := rfl
@[simp] theorem turn_ctrl (rest : List Input) (s : State) : (turn rest s).ctrl = s.ctrl := rfl
@[simp] theorem turn_status (rest : List Input) (s : State) : (turn rest s).status = s.status := rfl
@[simp] theorem turn_remain (rest : List Input) (s : State) : (turn rest s).remain = s.remain := rfl
@[simp] theorem turn_tbl (rest : List Input) (s : State) : (turn rest s).tbl = s.tbl := rfl
@[simp] theorem turn_pend (rest : List Input) (s : State) : (turn rest s).pend = s.pend := rfl
@[simp] theorem turn_parts (rest : List Input) (s : State) : (turn rest s).parts = s.parts := rfl
@[simp] theorem turn_inReset (rest : List Input) (s : State) : (turn rest s).inReset = s.inReset := rfl
@[simp] theorem turn_inputs (rest : List Input) (s : State) : (turn rest s).inputs = rest := rfl
@[simp] theorem turn_rdata (rest : List Input) (s : State) : (turn rest s).rdata = none := rfl
@[simp] theorem turn_draws (rest : List Input) (s : State) : (turn rest s).draws = s.draws := rfl

/-! ### The release of reset (70_reset_and_hazards.md R260) -/

@[simp] theorem leaveReset_regs (s : State) : (leaveReset s).regs = s.regs := rfl
@[simp] theorem leaveReset_blk (s : State) : (leaveReset s).blk = s.blk := rfl
@[simp] theorem leaveReset_ctrl (s : State) : (leaveReset s).ctrl = s.ctrl := rfl
@[simp] theorem leaveReset_status (s : State) : (leaveReset s).status = s.status := rfl
@[simp] theorem leaveReset_remain (s : State) : (leaveReset s).remain = s.remain := rfl
@[simp] theorem leaveReset_tbl (s : State) : (leaveReset s).tbl = s.tbl := rfl
@[simp] theorem leaveReset_pend (s : State) : (leaveReset s).pend = s.pend := rfl
@[simp] theorem leaveReset_parts (s : State) : (leaveReset s).parts = s.parts := rfl
@[simp] theorem leaveReset_inReset (s : State) : (leaveReset s).inReset = false := rfl
@[simp] theorem leaveReset_inputs (s : State) : (leaveReset s).inputs = s.inputs := rfl
@[simp] theorem leaveReset_rdata (s : State) : (leaveReset s).rdata = s.rdata := rfl
@[simp] theorem leaveReset_draws (s : State) : (leaveReset s).draws = s.draws := rfl

/-! ### The assertion of reset (70_reset_and_hazards.md R260) -/

@[simp] theorem enterReset_regs (s : State) : (enterReset s).regs = State.reset.regs := rfl
@[simp] theorem enterReset_blk (s : State) : (enterReset s).blk = State.reset.blk := rfl
@[simp] theorem enterReset_ctrl (s : State) : (enterReset s).ctrl = State.reset.ctrl := rfl
@[simp] theorem enterReset_status (s : State) : (enterReset s).status = State.reset.status := rfl
@[simp] theorem enterReset_remain (s : State) : (enterReset s).remain = State.reset.remain := rfl
@[simp] theorem enterReset_tbl (s : State) : (enterReset s).tbl = State.reset.tbl := rfl
@[simp] theorem enterReset_pend (s : State) : (enterReset s).pend = State.reset.pend := rfl
@[simp] theorem enterReset_parts (s : State) : (enterReset s).parts = State.reset.parts := rfl
@[simp] theorem enterReset_inReset (s : State) : (enterReset s).inReset = true := rfl
@[simp] theorem enterReset_inputs (s : State) : (enterReset s).inputs = s.inputs := rfl
@[simp] theorem enterReset_rdata (s : State) : (enterReset s).rdata = State.reset.rdata := rfl
@[simp] theorem enterReset_draws (s : State) : (enterReset s).draws = s.draws := rfl

/-! ### Effect(MUL) (41_field_primitive.md R127) -/

@[simp] theorem mulEffect_regs (s : State) : (mulEffect s).regs = s.regs.write .res (gfmul s.regs.a s.regs.b) := rfl
@[simp] theorem mulEffect_blk (s : State) : (mulEffect s).blk = s.blk := rfl
@[simp] theorem mulEffect_ctrl (s : State) : (mulEffect s).ctrl = s.ctrl := rfl
@[simp] theorem mulEffect_status (s : State) : (mulEffect s).status = s.status := rfl
@[simp] theorem mulEffect_remain (s : State) : (mulEffect s).remain = s.remain := rfl
@[simp] theorem mulEffect_tbl (s : State) : (mulEffect s).tbl = s.tbl := rfl
@[simp] theorem mulEffect_pend (s : State) : (mulEffect s).pend = s.pend := rfl
@[simp] theorem mulEffect_parts (s : State) : (mulEffect s).parts = s.parts := rfl
@[simp] theorem mulEffect_inReset (s : State) : (mulEffect s).inReset = s.inReset := rfl
@[simp] theorem mulEffect_inputs (s : State) : (mulEffect s).inputs = s.inputs := rfl
@[simp] theorem mulEffect_rdata (s : State) : (mulEffect s).rdata = s.rdata := rfl
@[simp] theorem mulEffect_draws (s : State) : (mulEffect s).draws = s.draws := rfl

/-! ### The recording of an error (60_exceptions.md R222) -/

@[simp] theorem raiseError_regs (e : CmdError) (s : State) : (raiseError e s).regs = s.regs := by
  unfold raiseError; split <;> rfl
@[simp] theorem raiseError_blk (e : CmdError) (s : State) : (raiseError e s).blk = s.blk := by
  unfold raiseError; split <;> rfl
@[simp] theorem raiseError_ctrl (e : CmdError) (s : State) : (raiseError e s).ctrl = s.ctrl := by
  unfold raiseError; split <;> rfl
@[simp] theorem raiseError_remain (e : CmdError) (s : State) : (raiseError e s).remain = s.remain := by
  unfold raiseError; split <;> rfl
@[simp] theorem raiseError_tbl (e : CmdError) (s : State) : (raiseError e s).tbl = s.tbl := by
  unfold raiseError; split <;> rfl
@[simp] theorem raiseError_pend (e : CmdError) (s : State) : (raiseError e s).pend = s.pend := by
  unfold raiseError; split <;> rfl
@[simp] theorem raiseError_parts (e : CmdError) (s : State) : (raiseError e s).parts = s.parts := by
  unfold raiseError; split <;> rfl
@[simp] theorem raiseError_inReset (e : CmdError) (s : State) : (raiseError e s).inReset = s.inReset := by
  unfold raiseError; split <;> rfl
@[simp] theorem raiseError_inputs (e : CmdError) (s : State) : (raiseError e s).inputs = s.inputs := by
  unfold raiseError; split <;> rfl
@[simp] theorem raiseError_rdata (e : CmdError) (s : State) : (raiseError e s).rdata = s.rdata := by
  unfold raiseError; split <;> rfl
@[simp] theorem raiseError_draws (e : CmdError) (s : State) : (raiseError e s).draws = s.draws := by
  unfold raiseError; split <;> rfl

/-! ### The clearing of STATUS (60_exceptions.md R230) -/

@[simp] theorem clearStatus_regs (d : Word32) (s : State) : (clearStatus d s).regs = s.regs := rfl
@[simp] theorem clearStatus_blk (d : Word32) (s : State) : (clearStatus d s).blk = s.blk := rfl
@[simp] theorem clearStatus_ctrl (d : Word32) (s : State) : (clearStatus d s).ctrl = s.ctrl := rfl
@[simp] theorem clearStatus_remain (d : Word32) (s : State) : (clearStatus d s).remain = s.remain := rfl
@[simp] theorem clearStatus_tbl (d : Word32) (s : State) : (clearStatus d s).tbl = s.tbl := rfl
@[simp] theorem clearStatus_pend (d : Word32) (s : State) : (clearStatus d s).pend = s.pend := rfl
@[simp] theorem clearStatus_parts (d : Word32) (s : State) : (clearStatus d s).parts = s.parts := rfl
@[simp] theorem clearStatus_inReset (d : Word32) (s : State) : (clearStatus d s).inReset = s.inReset := rfl
@[simp] theorem clearStatus_inputs (d : Word32) (s : State) : (clearStatus d s).inputs = s.inputs := rfl
@[simp] theorem clearStatus_rdata (d : Word32) (s : State) : (clearStatus d s).rdata = s.rdata := rfl
@[simp] theorem clearStatus_draws (d : Word32) (s : State) : (clearStatus d s).draws = s.draws := rfl

/-! ### STATUS under the updates that change it -/

@[simp] theorem raiseError_done (e : CmdError) (s : State) : (raiseError e s).status.done = s.status.done := by
  unfold raiseError; split <;> rfl

@[simp] theorem raiseError_tblPowers (e : CmdError) (s : State) :
    (raiseError e s).status.tblPowers = s.status.tblPowers := by
  unfold raiseError; split <;> rfl

@[simp] theorem raiseError_err (e : CmdError) (s : State) : (raiseError e s).status.err = true := by
  unfold raiseError; split <;> simp_all

@[simp] theorem clearStatus_tblPowers (d : Word32) (s : State) :
    (clearStatus d s).status.tblPowers = s.status.tblPowers := by
  unfold clearStatus; dsimp only; split <;> split <;> rfl

@[simp] theorem clearStatus_done (d : Word32) (s : State) :
    (clearStatus d s).status.done = (s.status.done && !d.getLsbD 1) := by
  unfold clearStatus; dsimp only; split <;> split <;> simp_all

/-! ### The views -/

@[simp] theorem busy_eq_isSome (s : State) : s.busy = s.pend.isSome := rfl

theorem powers_eq (s : State) : s.powers = s.status.tblPowers.toNat := rfl

end Sys2Proof.Machine
end

