-- ==== Sys2Proof/Laws/Bytes.lean ====
section
/-! SUPPORT. The laws of byte strings, bus words and the block buffer's memory. -/

namespace Sys2Proof.Machine

open Sys2Proof

/-! ### Byte strings -/

theorem byteOf_ofBytes (f : Nat → Byte) {k : Nat} (hk : k < 16) : byteOf (ofBytes f) k = f k := by
  apply BitVec.eq_of_getLsbD_eq
  intro i hi
  unfold byteOf ofBytes
  interval_cases k <;> simp only [BitVec.getLsbD_extractLsb', BitVec.getLsbD_append] <;> grind

/-- Two strings with the same bytes are equal. -/
theorem block_ext {r r' : Block} (h : ∀ k, k < 16 → byteOf r k = byteOf r' k) : r = r' := by
  apply BitVec.eq_of_getLsbD_eq
  intro i hi
  have hb := congrArg (fun b : Byte => b.getLsbD (i % 8)) (h (15 - i / 8) (by omega))
  simp only [byteOf, BitVec.getLsbD_extractLsb'] at hb
  have e : 8 * (15 - (15 - i / 8)) + i % 8 = i := by omega
  rw [e] at hb
  simpa [Nat.mod_lt] using hb

theorem ofBytes_byteOf (r : Block) : ofBytes (byteOf r) = r :=
  block_ext fun _ hk => byteOf_ofBytes _ hk

theorem byteOf_rev16 (r : Block) {k : Nat} (hk : k < 16) : byteOf (rev16 r) k = byteOf r (15 - k) :=
  byteOf_ofBytes _ hk

theorem laneOf_wordOfLanes (l : Nat → Byte) {b : Nat} (hb : b < 4) : laneOf (wordOfLanes l) b = l b := by
  apply BitVec.eq_of_getLsbD_eq
  intro i hi
  unfold laneOf wordOfLanes
  interval_cases b <;> simp only [BitVec.getLsbD_extractLsb', BitVec.getLsbD_append] <;> grind

/-- Two bus words with the same lanes are equal. -/
theorem word_ext {d d' : Word32} (h : ∀ b, b < 4 → laneOf d b = laneOf d' b) : d = d' := by
  apply BitVec.eq_of_getLsbD_eq
  intro i hi
  have hb := congrArg (fun b : Byte => b.getLsbD (i % 8)) (h (i / 8) (by omega))
  simp only [laneOf, BitVec.getLsbD_extractLsb'] at hb
  have e : 8 * (i / 8) + i % 8 = i := by omega
  rw [e] at hb
  simpa [Nat.mod_lt] using hb

theorem laneOf_wordOf (r : Block) (j : Nat) {b : Nat} (hb : b < 4) : laneOf (wordOf r j) b = byteOf r (4 * j + b) :=
  laneOf_wordOfLanes _ hb

theorem byteOf_withWord (r : Block) (j : Nat) (d : Word32) {k : Nat} (hk : k < 16) :
    byteOf (withWord r j d) k = if k / 4 = j then laneOf d (k % 4) else byteOf r k :=
  byteOf_ofBytes _ hk

/-- A word of a string reads back the word written to it, and the other words as before. -/
theorem wordOf_withWord (r : Block) {j j' : Nat} (hj' : j' < 4) (d : Word32) :
    wordOf (withWord r j d) j' = if j' = j then d else wordOf r j' := by
  apply word_ext
  intro b hb
  rw [laneOf_wordOf _ _ hb, byteOf_withWord _ _ _ (by omega)]
  have e1 : (4 * j' + b) / 4 = j' := by omega
  have e2 : (4 * j' + b) % 4 = b := by omega
  rw [e1, e2]
  split
  · rfl
  · rw [laneOf_wordOf _ _ hb]

theorem byteOf_ofWords (w : Nat → Word32) {k : Nat} (hk : k < 16) :
    byteOf (ofWords w) k = laneOf (w (k / 4)) (k % 4) :=
  byteOf_ofBytes _ hk

/-- The four bus words of a string make the string (20_memory.md R55). -/
theorem ofWords_wordOf (r : Block) : ofWords (wordOf r) = r :=
  block_ext fun k hk => by
    rw [byteOf_ofWords _ hk, laneOf_wordOf _ _ (by omega), show 4 * (k / 4) + k % 4 = k by omega]

/-! ### The field-element view -/

@[simp] theorem fe_bytesOf (p : Poly) : fe (bytesOf p) = p := by
  apply BitVec.eq_of_getLsbD_eq
  intro i hi
  simp [fe, bytesOf]

@[simp] theorem bytesOf_fe (r : Block) : bytesOf (fe r) = r := fe_bytesOf r

/-! ### The data registers -/

@[simp] theorem DataRegs.read_write (x : DataRegs) (r r' : DataReg) (v : Block) :
    (x.write r v).read r' = if r' = r then v else x.read r' := by
  cases r <;> cases r' <;> rfl

@[simp] theorem DataRegs.write_read (x : DataRegs) (r : DataReg) : x.write r (x.read r) = x := by
  cases r <;> rfl

/-! ### The memory of the block buffer -/

@[simp] theorem Memory.lookup_write (a b : Nat) (v : Byte) (m : Memory) :
    Memory.lookup a (Memory.write b v m) = if a = b then some v else Memory.lookup a m := by
  induction m with
  | nil => simp [Memory.write, Memory.lookup]
  | cons c m ih =>
    obtain ⟨c, w⟩ := c
    simp only [Memory.write]
    split
    · simp [Memory.lookup]
    · split
      · simp only [Memory.lookup]; grind
      · simp only [Memory.lookup, ih]; grind

theorem Memory.wfAbove_write {n a : Nat} {v : Byte} {m : Memory} (hn : n ≤ a) (ha : a < Config.windowBytes)
    (h : Memory.wfAbove n m = true) : Memory.wfAbove n (Memory.write a v m) = true := by
  induction m generalizing n with
  | nil => simp_all [Memory.write, Memory.wfAbove]
  | cons c m ih =>
    obtain ⟨c, w⟩ := c
    simp only [Memory.wfAbove, Bool.and_eq_true, decide_eq_true_eq] at h
    simp only [Memory.write]
    split
    · simp only [Memory.wfAbove, Bool.and_eq_true, decide_eq_true_eq]
      exact ⟨⟨hn, ha⟩, ⟨by omega, h.1.2⟩, h.2⟩
    · split
      · subst a
        simp only [Memory.wfAbove, Bool.and_eq_true, decide_eq_true_eq]
        exact ⟨⟨hn, ha⟩, h.2⟩
      · simp only [Memory.wfAbove, Bool.and_eq_true, decide_eq_true_eq]
        exact ⟨h.1, ih (by omega) h.2⟩

/-- A byte write inside the block buffer keeps the canonical form. -/
theorem Memory.wf_write {a : Nat} {v : Byte} {m : Memory} (ha : 0x80 ≤ a ∧ a < 0x100) (h : Memory.wf m = true) :
    Memory.wf (Memory.write a v m) = true :=
  Memory.wfAbove_write ha.1 ha.2 h

/-- A word write inside the block buffer keeps the canonical form. -/
theorem Memory.wf_writeWord {a : Nat} {d : Word32} {m : Memory} (ha : 0x80 ≤ a ∧ a + 3 < 0x100)
    (h : Memory.wf m = true) : Memory.wf (Memory.writeWord a d m) = true :=
  Memory.wf_write (by omega) (Memory.wf_write (by omega) (Memory.wf_write (by omega) (Memory.wf_write (by omega) h)))

/-- A word write stores the lanes of the word at its four offsets and nothing else. -/
theorem Memory.lookup_writeWord (a x : Nat) (d : Word32) (m : Memory) :
    Memory.lookup x (Memory.writeWord a d m) =
      if a ≤ x ∧ x < a + 4 then some (laneOf d (x - a)) else Memory.lookup x m := by
  simp only [Memory.writeWord, Memory.lookup_write]
  by_cases h3 : x = a + 3
  · simp [h3]
  by_cases h2 : x = a + 2
  · simp [h2]
  by_cases h1 : x = a + 1
  · simp [h1]
  by_cases h0 : x = a
  · simp [h0]
  · have : ¬(a ≤ x ∧ x < a + 4) := by omega
    simp [h0, h1, h2, h3, this]

theorem blkByte_of_lookup {s : State} {a : Nat} {v : Byte} (h : Memory.lookup a s.blk = some v) : blkByte s a = v := by
  simp [blkByte, h]

end Sys2Proof.Machine
end

