-- ==== Sys2Proof/Laws/Ops.lean ====
section
/-! SUPPORT. One lemma per shared operation that says what it can do: the issue and completion of commands, and what
each Effect leaves unchanged. -/

namespace Sys2Proof.Machine

open Sys2Proof

/-! ### Operands -/

theorem operandError_eq_none_iff (i : Instr) : operandError i = none ↔ i.wellFormed = true := by
  cases i with
  | nop => simp [operandError, Instr.wellFormed]
  | mul => simp [operandError, Instr.wellFormed]
  | build len =>
    revert len; decide
  | auth len => simp [operandError, Instr.wellFormed]
  | norm rsel => simp only [operandError, Instr.wellFormed, decide_eq_true_eq, ite_eq_left_iff]; grind

theorem regOfRsel_isSome_iff (rsel : BitVec 4) : (regOfRsel rsel).isSome ↔ rsel.toNat ≤ 4 := by
  revert rsel; decide

/-! ### Errors -/

/-- Recording an error changes ERR, ERR_MULTI and ERR_CODE and nothing else (60_exceptions.md R222). -/
theorem raiseError_eq (e : CmdError) (s : State) :
    raiseError e s = { s with status := { s.status with
      err := true
      errMulti := s.status.errMulti || s.status.err
      errCode := if s.status.err then s.status.errCode else errorCode e } } := by
  unfold raiseError
  split <;> simp_all

/-! ### Issue -/

/-- All that a command word with legal fields can do to an idle engine (40_command_issue.md R101). -/
theorem issue_cases (i : Instr) (s : State) :
    (∃ e, operandError i = some e ∧ issue i s = raiseError e s) ∨
    (i.wellFormed = true ∧ needsTable i = true ∧ s.status.tblPowers = 0 ∧ issue i s = raiseError .noTable s) ∨
    (i.wellFormed = true ∧ (needsTable i = true → s.status.tblPowers ≠ 0) ∧ issue i s = accept i s) := by
  unfold issue
  cases h : operandError i with
  | some e => exact .inl ⟨e, rfl, rfl⟩
  | none =>
    have hw := (operandError_eq_none_iff i).mp h
    cases hn : needsTable i
    · exact .inr (.inr ⟨hw, by simp, by simp⟩)
    · by_cases ht : s.status.tblPowers = 0
      · exact .inr (.inl ⟨hw, rfl, ht, by simp [ht]⟩)
      · exact .inr (.inr ⟨hw, fun _ => ht, if_neg (by simpa using ht)⟩)

theorem issue_accepts {i : Instr} {s : State} (hw : i.wellFormed = true)
    (ht : needsTable i = true → s.status.tblPowers ≠ 0) : issue i s = accept i s := by
  have h := (operandError_eq_none_iff i).mpr hw
  unfold issue
  cases hn : needsTable i <;> simp_all

/-! ### The command's step -/

theorem commandStep_idle {s : State} (h : s.pend = none) (i : Instr) (f : Bool → State → State) :
    commandStep i f s = .next (issue i s) := by simp [commandStep, h]

theorem commandStep_pending {s : State} {p : Pending} (h : s.pend = some p) (i : Instr) (f : Bool → State → State) :
    commandStep i f s = .next (complete (f p.revS s)) := by simp [commandStep, h]

/-- On an idle engine every command is issued. -/
theorem exec_idle {s : State} (h : s.pend = none) (i : Instr) : exec i s = .next (issue i s) := by
  cases i <;> simp only [exec, execNop, execMul, execBuild, execAuth, execNorm, commandStep_idle h]

/-- A pending command completes with its Effect. -/
theorem exec_pending {s : State} {p : Pending} (h : s.pend = some p) (i : Instr) :
    exec i s = .next (complete (effectOf i p.revS s)) := by
  cases i <;> simp only [exec, execNop, execMul, execBuild, execAuth, execNorm, commandStep_pending h, effectOf]

/-! ### The Effects -/

@[simp] theorem nopEffect_eq (s : State) : nopEffect s = s := rfl

/-- Effect(BUILD) changes TBL and TBL_POWERS only (42_table_builder.md R151). -/
theorem buildEffect_eq (len : BitVec 8) (s : State) :
    buildEffect len s = { s with
      tbl := buildSlots (fe s.regs.hkey) (wholeBlocks len) 1 (fe s.regs.hkey) s.tbl
      status := { s.status with tblPowers := BitVec.ofNat 4 (wholeBlocks len) } } := rfl

/-- Effect(AUTH) changes ACC and REMAIN only (43_authenticator.md R175). -/
theorem authEffect_eq (len : BitVec 8) (s : State) :
    ∃ acc, authEffect len s = { s with
      regs := { s.regs with acc := acc }
      remain := ⟨BitVec.ofNat 4 (trailingBytes len), BitVec.ofNat 8 (16 * wholeBlocks len)⟩ } :=
  ⟨_, rfl⟩

/-- Effect(NORM) changes the register RSEL names only, and only with rev_s = 1 (44_normalizer.md R200). -/
theorem normEffect_eq (rsel : BitVec 4) (revS : Bool) (s : State) :
    normEffect rsel revS s = s ∨
    ∃ r, regOfRsel rsel = some r ∧ revS = true ∧ normEffect rsel revS s = s.setReg r (rev16 (s.regs.read r)) := by
  unfold normEffect
  cases regOfRsel rsel <;> cases revS <;> simp

/-- What no Effect changes: BLK, CTRL, pend, C0 to C2, the reset input, and the model's own fields; of STATUS only
TBL_POWERS can change. -/
theorem effectOf_frame (i : Instr) (revS : Bool) (s : State) :
    ∃ regs remain tbl n, effectOf i revS s = { s with
      regs := regs, remain := remain, tbl := tbl, status := { s.status with tblPowers := n } } := by
  cases i with
  | nop => exact ⟨_, _, _, _, rfl⟩
  | mul => exact ⟨_, _, _, _, rfl⟩
  | build len => exact ⟨_, _, _, _, rfl⟩
  | auth len => exact ⟨_, _, _, _, rfl⟩
  | norm rsel =>
    rcases normEffect_eq rsel revS s with h | ⟨r, -, -, h⟩
    · exact ⟨_, _, _, _, h⟩
    · exact ⟨_, _, _, _, h⟩

/-! ### The table -/

/-- A slot reads back the power written to it, and the other slots as before. -/
theorem Table.slot_setSlot (t : Table) {k k' : Nat} (hk : 1 ≤ k ∧ k ≤ 8) (hk' : 1 ≤ k') (v : Poly) :
    Table.slot (Table.setSlot t k v) k' = if k' = k then v else Table.slot t k' := by
  obtain ⟨j, rfl⟩ : ∃ j, k = j + 1 := ⟨k - 1, by omega⟩
  obtain ⟨j', rfl⟩ : ∃ j', k' = j' + 1 := ⟨k' - 1, by omega⟩
  have hlen : t.toList.length = 8 := by simp
  simp only [Table.slot, Table.setSlot, Vector.toList_setIfInBounds, List.getD_eq_getElem?_getD, List.getElem?_set]
  by_cases h : j' = j
  · subst h; simp [hlen, show j' < 8 by omega]
  · simp [h, Ne.symm h]

/-- The slots outside 1 to 8 read as 0 and ignore writes (log 17). -/
theorem Table.slot_outside (t : Table) {k : Nat} (hk : k = 0 ∨ 8 < k) (v : Poly) :
    Table.slot t k = 0 ∧ Table.setSlot t k v = t := by
  cases k with
  | zero => exact ⟨rfl, rfl⟩
  | succ j =>
    have hj : 8 ≤ j := by omega
    refine ⟨by simp [Table.slot, hj], ?_⟩
    simp only [Table.setSlot, Vector.setIfInBounds]
    apply Vector.toArray_inj.mp
    exact Array.setIfInBounds_eq_of_size_le (by simpa using hj)

end Sys2Proof.Machine
end

