-- ==== Sys2Proof/Laws/Step.lean ====
section
/-! SUPPORT. Everything one step can do, said once: `Change s s'` lists the changes a step makes to the state `s` it
starts its work in, and `step_change` says that every step is one of them. -/

namespace Sys2Proof.Machine

open Sys2Proof

/-- The changes a step that answers a next state can make (20_memory.md R57 to R62; 40_command_issue.md R101 to R103;
70_reset_and_hazards.md R260). -/
inductive Change (s : State) : State → Prop
  /-- The engine's turn with nothing pending, or a host write that is ignored. -/
  | nothing : Change s s
  | completion (p : Pending) (hp : s.pend = some p) : Change s (complete (effectOf p.instr p.revS s))
  | read (o : Nat) (hr : s.inReset = false) (ho : o < 0x100 ∧ o % 4 = 0) : Change s (busRead o s)
  | ctrlWrite (c : BitVec 3) (hr : s.inReset = false) : Change s { s with ctrl := c }
  | statusWrite (d : Word32) (hr : s.inReset = false) : Change s (clearStatus d s)
  | rejection (e : CmdError) (hr : s.inReset = false) : Change s (raiseError e s)
  | acceptance (i : Instr) (hr : s.inReset = false) (hp : s.pend = none) (hw : i.wellFormed = true)
      (ht : needsTable i = true → s.status.tblPowers ≠ 0) : Change s (accept i s)
  | dataWrite (r : DataReg) (j : Nat) (d : Word32) (hr : s.inReset = false) (hp : s.pend = none)
      (hreg : r = .a ∨ r = .b ∨ r = .acc) : Change s (writeRegWord r j d s)
  | hkeyWrite (j : Nat) (d : Word32) (hr : s.inReset = false) (hp : s.pend = none) :
      Change s (clearPowers (writeRegWord .hkey j d s))
  | blkWrite (a : Nat) (d : Word32) (hr : s.inReset = false) (hp : s.pend = none)
      (ha : 0x80 ≤ a ∧ a < 0x100 ∧ a % 4 = 0) : Change s (writeBlkWord a d s)
  | resetAsserted : Change s (enterReset s)
  | resetReleased : Change s (leaveReset s)

/-- An engine step never stops (40_command_issue.md R103: Effect never fails). -/
theorem engineStep_change (s : State) : ∃ s', engineStep s = .next s' ∧ Change s s' := by
  cases hp : s.pend with
  | none => exact ⟨s, by simp [engineStep, hp], .nothing⟩
  | some p => exact ⟨_, by simp only [engineStep, hp, exec_pending hp], .completion p hp⟩

theorem issue_change {i : Instr} {s : State} (hr : s.inReset = false) (hp : s.pend = none) : Change s (issue i s) := by
  rcases issue_cases i s with ⟨e, -, h⟩ | ⟨-, -, -, h⟩ | ⟨hw, ht, h⟩ <;> rw [h]
  · exact .rejection e hr
  · exact .rejection _ hr
  · exact .acceptance i hr hp hw ht

/-- A CMD write answers a next state whatever the word: a rejection or an acceptance (60_exceptions.md R221). -/
theorem presentCommand_change (d : Word32) {s : State} (hr : s.inReset = false) :
    ∃ s', presentCommand d s = .next s' ∧ Change s s' := by
  unfold presentCommand
  cases hp : s.pend with
  | some p => exact ⟨_, by simp [hp], .rejection .cmdBusy hr⟩
  | none =>
    simp only [busy_eq_isSome, hp, Option.isSome_none, Bool.false_eq_true, if_false]
    cases decodeFields d with
    | error e => exact ⟨_, rfl, .rejection e hr⟩
    | ok i => exact ⟨_, exec_idle hp i, issue_change hr hp⟩

theorem guardedWrite_change {f : State → State} {s : State} (hr : s.inReset = false)
    (h : s.pend = none → Change s (f s)) : Change s (guardedWrite f s) := by
  unfold guardedWrite
  cases hp : s.pend with
  | some p => simpa [hp] using Change.rejection .writeBusy hr
  | none => simpa [hp] using h hp

/-- A block buffer target is a word of 0x80 to 0xFF. -/
theorem target_blk {o a : Nat} (h : target o = .blk a) : a = o ∧ 0x80 ≤ o := by
  unfold target at h
  split at h
  case h_9 h0 h1 h2 h3 h4 h5 h6 h7 =>
    obtain rfl : o = a := by simpa using h
    have hd : 8 ≤ o / 16 := by
      by_contra hlt
      interval_cases o / 16 <;> simp_all
    exact ⟨rfl, by omega⟩
  all_goals first | exact absurd h (by simp) | (split at h <;> simp at h)

theorem writeTarget_change {o : Nat} (ho : o < 0x100 ∧ o % 4 = 0) (d : Word32) {s : State} (hr : s.inReset = false) :
    ∃ s', writeTarget (target o) d s = .next s' ∧ Change s s' := by
  cases ht : target o with
  | id => exact ⟨_, rfl, .nothing⟩
  | cap => exact ⟨_, rfl, .nothing⟩
  | ctrl => exact ⟨_, rfl, .ctrlWrite _ hr⟩
  | status => exact ⟨_, rfl, .statusWrite d hr⟩
  | cmd => exact presentCommand_change d hr
  | remain => exact ⟨_, rfl, .nothing⟩
  | reserved => exact ⟨_, rfl, .nothing⟩
  | blk a =>
    obtain ⟨rfl, ha⟩ := target_blk ht
    exact ⟨_, rfl, guardedWrite_change hr fun hp => .blkWrite _ d hr hp ⟨ha, ho⟩⟩
  | data r j =>
    cases r with
    | a => exact ⟨_, rfl, guardedWrite_change hr fun hp => .dataWrite _ j d hr hp (by simp)⟩
    | b => exact ⟨_, rfl, guardedWrite_change hr fun hp => .dataWrite _ j d hr hp (by simp)⟩
    | res => exact ⟨_, rfl, .nothing⟩
    | acc => exact ⟨_, rfl, guardedWrite_change hr fun hp => .dataWrite _ j d hr hp (by simp)⟩
    | hkey => exact ⟨_, rfl, guardedWrite_change hr fun hp => .hkeyWrite j d hr hp⟩

/-- A transaction the block accepts: reset released, inside the window, aligned and full (20_memory.md R56). -/
theorem hostStep_cases (t : BusTransaction) (s : State) :
    (s.inReset = true ∧ hostStep t s = .fault .heldInReset) ∨
    (s.inReset = false ∧ inWindow t.off = false ∧ hostStep t s = .refused .outsideWindow) ∨
    (s.inReset = false ∧ inWindow t.off = true ∧ legal t = false ∧ hostStep t s = .fault .busFault) ∨
    (s.inReset = false ∧ inWindow t.off = true ∧ legal t = true ∧ ∃ s', hostStep t s = .next s' ∧ Change s s') := by
  unfold hostStep
  cases hr : s.inReset with
  | true => simp
  | false =>
    cases hw : inWindow t.off with
    | false => simp
    | true =>
      cases hl : legal t with
      | false => simp
      | true =>
        have ho : t.off.toNat < 0x100 ∧ t.off.toNat % 4 = 0 := by
          have h0 : t.off < 256 := of_decide_eq_true (Bool.and_eq_true_iff.mp hw).2
          obtain ⟨h2, -⟩ : t.off.toNat % 4 = 0 ∧ t.strobes = 0xF := by simpa [legal] using hl
          omega
        refine .inr (.inr (.inr ⟨rfl, rfl, rfl, ?_⟩))
        cases t.access with
        | read => exact ⟨_, rfl, .read _ hr ho⟩
        | write d => exact writeTarget_change ho d hr

/-- A step is an engine step, a change of the reset input, or a host step. -/
theorem step_cases (s : State) :
    (∃ t rest, s.inputs = .bus t :: rest ∧ step s = hostStep t (turn rest s)) ∨
    ((∀ t rest, s.inputs ≠ .bus t :: rest) ∧ ∃ rest s', step s = .next s' ∧ Change (turn rest s) s') := by
  unfold step
  cases hi : s.inputs with
  | nil => exact .inr ⟨by simp, [], engineStep_change _⟩
  | cons i rest =>
    cases i with
    | bus t => exact .inl ⟨t, rest, rfl, rfl⟩
    | engine => exact .inr ⟨by simp, rest, engineStep_change _⟩
    | assertReset => exact .inr ⟨by simp, rest, _, rfl, .resetAsserted⟩
    | releaseReset => exact .inr ⟨by simp, rest, _, rfl, .resetReleased⟩

/-- Every step that answers a next state makes one of the listed changes. -/
theorem step_change {s s' : State} (h : step s = .next s') : ∃ rest, Change (turn rest s) s' := by
  rcases step_cases s with ⟨t, rest, -, hs⟩ | ⟨-, rest, t', hs, hc⟩ <;> rw [hs] at h
  · refine ⟨rest, ?_⟩
    rcases hostStep_cases t (turn rest s) with ⟨-, h'⟩ | ⟨-, -, h'⟩ | ⟨-, -, -, h'⟩ | ⟨-, -, -, t', h', hc⟩ <;>
      rw [h'] at h <;> cases h
    exact hc
  · cases h
    exact ⟨rest, hc⟩

/-- The steps that stop are the bus transactions the block does not accept. -/
theorem step_stops {s : State} (h : ∀ s', step s ≠ .next s') :
    ∃ t rest, s.inputs = .bus t :: rest ∧ (s.inReset = true ∨ inWindow t.off = false ∨ legal t = false) := by
  rcases step_cases s with ⟨t, rest, hi, hs⟩ | ⟨-, rest, t', hs, -⟩
  · refine ⟨t, rest, hi, ?_⟩
    rcases hostStep_cases t (turn rest s) with ⟨hr, -⟩ | ⟨-, hw, -⟩ | ⟨-, -, hl, -⟩ | ⟨-, -, -, t', h', -⟩
    · exact .inl hr
    · exact .inr (.inl hw)
    · exact .inr (.inr hl)
    · exact absurd (hs.trans h') (h t')
  · exact absurd hs (h t')

end Sys2Proof.Machine
end

