-- ==== Sys2Proof/Laws/PerInstr.lean ====
section
/-! SUPPORT. Facts about the commands as syntax, one lemma per constructor of Instr: the word of every command shows
the fixed bits of its row of the opcode table (30_encoding.md R83). -/

namespace Sys2Proof.Laws.EncodingRow

open Sys2Proof

/-- The command's word has a row in the opcode table and shows that row's fixed bits. -/
def Statement (i : Instr) : Prop :=
  ∃ row, opcodeRow (opcField (encode i)) = some row ∧ encode i &&& row.mask = row.pattern

theorem nop : Statement .nop := ⟨_, rfl, rfl⟩

theorem mul : Statement .mul := ⟨_, rfl, rfl⟩

theorem build (len : BitVec 8) : Statement (.build len) := by
  refine ⟨⟨0xFF00FFFF, 0x00000002⟩, ?_, ?_⟩ <;> revert len <;> decide +kernel

theorem auth (len : BitVec 8) : Statement (.auth len) := by
  refine ⟨⟨0xFF00FFFF, 0x00000003⟩, ?_, ?_⟩ <;> revert len <;> decide +kernel

theorem norm (rsel : BitVec 4) : Statement (.norm rsel) := by
  refine ⟨⟨0xFFFFF0FF, 0x00000004⟩, ?_, ?_⟩ <;> revert rsel <;> decide +kernel

end Sys2Proof.Laws.EncodingRow
end

