-- ==== Sys2Proof/Laws/Words.lean ====
section
/-! SUPPORT. The words of the control registers, field by field, and the reading and writing of the window, one lemma
per kind of offset. -/

namespace Sys2Proof.Machine

open Sys2Proof

/-! ### The control registers' words -/

theorem toNat_ofBool (b : Bool) : (BitVec.ofBool b).toNat = b.toNat := by cases b <;> rfl

/-- The word STATUS reads as, as a sum of its fields (10_state.md R29). -/
theorem statusWord_toNat (s : State) :
    (statusWord s).toNat = s.pend.isSome.toNat + 2 * s.status.done.toNat + 4 * s.status.err.toNat +
      8 * s.status.errMulti.toNat + 0x100 * s.status.errCode.toNat + 0x10000 * s.status.tblPowers.toNat := by
  have h1 := s.status.errCode.isLt
  have h2 := s.status.tblPowers.isLt
  simp only [statusWord, BitVec.toNat_append, toNat_ofBool, busy_eq_isSome, BitVec.toNat_ofNat]
  cases s.pend.isSome <;> cases s.status.done <;> cases s.status.err <;> cases s.status.errMulti <;>
    simp only [Bool.toNat_true, Bool.toNat_false, Nat.shiftLeft_eq] <;>
    simp only [← Nat.shiftLeft_eq] <;>
    repeat rw [← Nat.shiftLeft_add_eq_or_of_lt (by omega)]
  all_goals simp only [Nat.shiftLeft_eq]; omega

/-- The word REMAIN reads as, as a sum of its fields (10_state.md R35). -/
theorem remainWord_toNat (s : State) :
    (remainWord s).toNat = s.remain.rem.toNat + 0x100 * s.remain.consumed.toNat := by
  have h1 := s.remain.rem.isLt
  have h2 := s.remain.consumed.isLt
  simp only [remainWord, BitVec.toNat_append, BitVec.toNat_ofNat]
  repeat rw [← Nat.shiftLeft_add_eq_or_of_lt (by omega)]
  simp only [Nat.shiftLeft_eq]; omega

/-- A bus word as a sum of its lanes (20_memory.md R55). -/
theorem wordOfLanes_toNat (l : Nat → Byte) :
    (wordOfLanes l).toNat = (l 0).toNat + 0x100 * (l 1).toNat + 0x10000 * (l 2).toNat + 0x1000000 * (l 3).toNat := by
  have h0 := (l 0).isLt
  have h1 := (l 1).isLt
  have h2 := (l 2).isLt
  have h3 := (l 3).isLt
  simp only [wordOfLanes, BitVec.toNat_append]
  repeat rw [← Nat.shiftLeft_add_eq_or_of_lt (by omega)]
  simp only [Nat.shiftLeft_eq]; omega

/-! ### Word transactions -/

/-- A word write at an aligned offset of the window, out of reset, is the write of its target (20_memory.md R57). -/
theorem step_wr32 {s : State} {o : Nat} {d : Word32} {rest : List Input} (hi : s.inputs = wr32 o d :: rest)
    (hr : s.inReset = false) (ho : o < 0x100) (ha : o % 4 = 0) :
    step s = writeTarget (target o) d (turn rest s) := by
  have hw : inWindow (o : Int) = true := by simp [inWindow, Config.windowBytes]; omega
  simp [step, hi, wr32, inputStep, hostStep, hr, hw, legal, ha]

/-- A word read at an aligned offset of the window, out of reset, is the read of its target (20_memory.md R58). -/
theorem step_rd32 {s : State} {o : Nat} {rest : List Input} (hi : s.inputs = rd32 o :: rest)
    (hr : s.inReset = false) (ho : o < 0x100) (ha : o % 4 = 0) :
    step s = .next (busRead o (turn rest s)) := by
  have hw : inWindow (o : Int) = true := by simp [inWindow, Config.windowBytes]; omega
  simp [step, hi, rd32, inputStep, hostStep, hr, hw, legal, ha]

/-- A run takes its first step and goes on from the state that step leaves. -/
theorem run_step {s t : State} (h : step s = .next t) (k : Nat) :
    Host.Core.run core (k + 1) s = Host.Core.run core k t := by
  have h' : core.step s = .next t := h
  simp only [Host.Core.run, h']

/-- The first of several reads gives its word, and the others follow from the state it leaves. -/
theorem readWords_rd32 {s : State} {o : Nat} {rest : List Input} (hi : s.inputs = rd32 o :: rest)
    (hr : s.inReset = false) (ho : o < 0x100) (ha : o % 4 = 0) (n : Nat) :
    readWords (n + 1) s = (readWords n (busRead o (turn rest s))).map
      fun p => (readTarget (target o) (turn rest s) :: p.1, p.2) := by
  rw [readWords, step_rd32 hi hr ho ha]
  simp only [busRead]
  cases readWords n _ <;> rfl

/-- Word `j` of a data register stands at off(R) + 4j (10_state.md R36). -/
theorem target_reg (r : DataReg) {j : Nat} (hj : j < 4) : target (regOffset r + 4 * j) = .data r j := by
  interval_cases j <;> cases r <;> rfl

/-- The offsets 0x80 to 0xFF are the block buffer's (10_state.md R36). -/
theorem target_blkOffset {o : Nat} (h : 0x80 ≤ o) : target o = .blk o := by
  have h8 : 8 ≤ o / 16 := by omega
  unfold target
  split <;> first | omega | rfl

end Sys2Proof.Machine
end

