-- ==== Sys2Proof/Tests/Slice0.lean ====
section
/-! SUPPORT. Tests of one step each against the values of 95_test_vectors.md, the checks of WellFormed, the words of
the encodings, and for every statement with hypotheses a witness that meets them. -/

namespace Sys2Proof.Tests

open Sys2Proof Sys2Proof.Machine

/-! ### Small states -/

/-- The state after reset with steps to come. -/
def idle (inputs : List Input) : State := { State.reset with inputs := inputs }

/-- The state after reset with a command pending. -/
def busyWith (i : Instr) (revS : Bool) (inputs : List Input) : State :=
  { State.reset with pend := some ⟨i, revS⟩, inputs := inputs }

/-- The memory with a block stored at entry `i` of the block buffer. -/
def storeBlk (i : Nat) (v : Block) (m : Memory) : Memory :=
  Memory.writeWord (blkOffset i 12) (wordOf v 3) (Memory.writeWord (blkOffset i 8) (wordOf v 2)
    (Memory.writeWord (blkOffset i 4) (wordOf v 1) (Memory.writeWord (blkOffset i 0) (wordOf v 0) m)))

/-- A property of the next state, false of a stop. -/
def holdsNext (o : Host.Outcome State Fault Refusal) (p : State → Bool) : Bool :=
  match o with
  | .next s => p s
  | .fault _ => false
  | .refused _ => false

/-- H of 95_test_vectors.md section 1.1. -/
def keyH : Block := 0x66e94bd4ef8a2c3b884cfa59ca342b2e

/-- H^2 of 95_test_vectors.md section 3. -/
def keyH2 : Block := 0xa569901bb4b18906f5059d24465c904d

/-- C of 95_test_vectors.md section 2.3. -/
def blockC : Block := 0x0388dace60b6a392f328c2b971b2fe78

/-- The table of H with two powers. -/
def tableH : Table := Table.setSlot (Table.setSlot State.reset.tbl 1 (fe keyH)) 2 (fe keyH2)

/-- A pending AUTH of vector A1: C and the length block, table of two. -/
def stateA1 : State :=
  { busyWith (.auth 32) false [] with
    regs := { State.reset.regs with hkey := keyH }
    tbl := tableH
    status := { State.reset.status with tblPowers := 2 }
    blk := storeBlk 1 0x80 (storeBlk 0 blockC []) }

/-! ### WellFormed refuses an ill-formed term of each check -/

theorem test_build_size_refused : (Instr.build 48).wellFormed = false ∧ (Instr.build 0).wellFormed = false := by decide

theorem test_auth_length_refused : (Instr.auth 144).wellFormed = false := by decide

theorem test_norm_register_refused : (Instr.norm 5).wellFormed = false := by decide

/-! ### Encodings written out from 30_encoding.md R80 and R83: RSV1, LEN, RSV0, RSEL, OPC -/

theorem test_nop_word : decodeTableWord 32 0b00000000_00000000_0000_0000_00000000 = some .nop := by decide

theorem test_mul_word : decodeTableWord 32 0b00000000_00000000_0000_0000_00000001 = some .mul := by decide

theorem test_build_word : decodeTableWord 32 0b00000000_01100000_0000_0000_00000010 = some (.build 96) := by decide

theorem test_auth_word : decodeTableWord 32 0b00000000_10001111_0000_0000_00000011 = some (.auth 143) := by decide

theorem test_norm_word : decodeTableWord 32 0b00000000_00000000_0000_0011_00000100 = some (.norm 3) := by decide

/-- 95_test_vectors.md section 5.2: opcode first, reserved bits before the operand. -/
theorem test_rejected_words :
    decode 0xFFFFFFFF = .error .illegalOpcode ∧ decode 0x00001504 = .error .reservedNonzero ∧
      decode 0x00F00103 = .error .reservedNonzero ∧ decode 0x00A00002 = .error .badSize ∧
      decode 0x00900003 = .error .badLen ∧ decode 0x00000F04 = .error .badRsel := by decide

/-! ### The field (95_test_vectors.md sections 2.1 and 2.2) -/

theorem test_fe : fe keyH = 0x74d42c539a5f3211dc3451f72bd29766 ∧ fe 0xe1000000000000000000000000000000 = 0x87 := by
  decide +kernel

theorem test_clmul : clmul64 0x3 0x3 = 0x5 ∧
    clmul64 0xffffffffffffffff 0xffffffffffffffff = 0x55555555555555555555555555555555 := by decide +kernel

/-- The bus words of H (section 1.1). -/
theorem test_bus_words : wordOf keyH 0 = 0xD44BE966 ∧ wordOf keyH 3 = 0x2E2B34CA := by decide +kernel

/-- The example of 20_memory.md R55, reassembled. -/
theorem test_words_reassembled :
    ofWords (fun j => [0xD44BE966, 0x3B2C8AEF, 0x59FA4C88, 0x2E2B34CA].getD j 0) = keyH := by decide +kernel

/-! ### Commands, one step each -/

/-- Section 5.2: NOP accepted, STATUS reads 0x00000001. -/
theorem test_nop_accepted :
    holdsNext (step (State.reset.withFetchWord 32 0x00000000)) (fun s => statusWord s == 0x00000001) = true := by
  decide +kernel

/-- 40_command_issue.md R105: after the completion STATUS reads 0x00000002. -/
theorem test_nop_completes :
    holdsNext (step (busyWith .nop false [])) (fun s => statusWord s == 0x00000002) = true := by decide +kernel

/-- Vector M11. -/
theorem test_mul_square :
    holdsNext (exec .mul { busyWith .mul false [] with regs := { State.reset.regs with a := keyH, b := keyH } })
      (fun s => s.regs.res == 0xa569901bb4b18906f5059d24465c904d) = true := by decide +kernel

/-- Vector M6, which folds twice. -/
theorem test_mul_two_folds :
    holdsNext (exec .mul { busyWith .mul false [] with regs := { State.reset.regs with a := 1, b := 1 } })
      (fun s => s.regs.res == 0xe6080000000000000000000000000003) = true := by decide +kernel

/-- Section 3: H^3 and H^4 of the table, STATUS 0x00040002. -/
theorem test_build_powers :
    holdsNext (exec (.build 64) { busyWith (.build 64) false [] with regs := { State.reset.regs with hkey := keyH } })
      (fun s => bytesOf (Table.slot s.tbl 3) == 0xa24af38161917d7c9ae0d027c5fd91ca &&
        bytesOf (Table.slot s.tbl 4) == 0xca45ecb9a45ec8a2f256e11f220638b2 && statusWord s == 0x00040002) = true := by
  decide +kernel

/-- Section 5.2: BUILD 48 is BAD_SIZE and the table is kept. -/
theorem test_build_bad_size :
    holdsNext (step { State.reset.withFetchWord 32 0x00300002 with status := { State.reset.status with tblPowers := 2 } })
      (fun s => statusWord s == 0x00020404) = true := by decide +kernel

/-- Vector A1. -/
theorem test_auth_two_blocks :
    holdsNext (exec (.auth 32) stateA1)
      (fun s => s.regs.acc == 0xf38cbb1ad69223dcc3457ae5b6b0f885 && remainWord s == 0x00002000) = true := by
  decide +kernel

/-- Section 4.2, group trace of A1. -/
theorem test_auth_group_sums :
    groupSums (readBlk stateA1) (Table.slot tableH) 0 0 2 2 =
      ⟨0x0d5f7e7f6d668f72d320d6bf05e05675, 0x2d5508a34ca5502a3755afab1fea48d3,
        0x1b69e60c09c2ff33fa625d1a04850ec0⟩ := by decide +kernel

/-- Vector N1. -/
theorem test_norm_reverses :
    holdsNext (exec (.norm 3) { busyWith (.norm 3) true [] with
        regs := { State.reset.regs with acc := 0x000102030405060708090a0b0c0d0e0f } })
      (fun s => s.regs.acc == 0x0f0e0d0c0b0a09080706050403020100) = true := by decide +kernel

/-- Vector N5: with REV = 1 the acceptance of NORM of HKEY invalidates the table. -/
theorem test_norm_hkey_accepted :
    holdsNext (exec (.norm 4) { State.reset with ctrl := 1, status := { State.reset.status with tblPowers := 2 } })
      (fun s => statusWord s == 0x00000001) = true := by decide +kernel

/-! ### The bus -/

/-- Section 5.3: WRITE_BUSY, STATUS 0x00000805. -/
theorem test_write_busy :
    holdsNext (step (busyWith .mul false [wr32 0x20 0])) (fun s => statusWord s == 0x00000805) = true := by
  decide +kernel

/-- Section 5.3: all bits of STATUS written, TBL_POWERS stays. -/
theorem test_status_write :
    holdsNext (step { idle [wr32 0x0C 0xFFFFFFFF] with status := ⟨true, false, false, 0, 8⟩ })
      (fun s => statusWord s == 0x00080000) = true := by decide +kernel

/-- 20_memory.md R57: a write to HKEY, lane 0 to byte 0, invalidates the table. -/
theorem test_hkey_write :
    holdsNext (step { idle [wr32 0x60 0xD44BE966] with status := ⟨true, false, false, 0, 8⟩ })
      (fun s => s.regs.hkey == 0x66e94bd4000000000000000000000000 && statusWord s == 0x00000002) = true := by
  decide +kernel

theorem test_cap_read : holdsNext (step (idle [rd32 0x04])) (fun s => s.rdata == some 0x00010808) = true := by
  decide +kernel

/-! ### Witnesses: each statement with hypotheses has inputs that meet them -/

theorem witness_DecodeOfEncodeIsTheCommand : (Instr.build 128).wellFormed = true ∧ (Instr.norm 4).wellFormed = true := by
  decide

theorem witness_DecodedWordIsTheEncoding : decode 0x008F0003 = .ok (.auth 143) := by decide

/-- One word for each clause, at the edges of the operands' ranges. -/
theorem witness_DecodingIsTotalInPriorityOrder :
    decode 0x00000005 = .error .illegalOpcode ∧ decode 0x01000004 = .error .reservedNonzero ∧
      decode 0x00000000 = .ok .nop ∧ decode 0x00000001 = .ok .mul ∧
      decode 0x00200002 = .ok (.build 32) ∧ decode 0x00800002 = .ok (.build 128) ∧
      decode 0x00000002 = .error .badSize ∧ decode 0x008F0003 = .ok (.auth 143) ∧
      decode 0x00900003 = .error .badLen ∧ decode 0x00000404 = .ok (.norm 4) ∧
      decode 0x00000504 = .error .badRsel := by decide

theorem witness_StepIssuesTheDecodedCommand :
    (idle [wr32 0x10 0x00000001]).inputs = wr32 0x10 0x00000001 :: [] ∧ (idle [wr32 0x10 1]).inReset = false ∧
      (idle [wr32 0x10 1]).pend = none ∧ decode 0x00000001 = .ok .mul ∧ Instr.mul.wellFormed = true := by decide

theorem witness_StepCompletesThePendingCommand :
    ((busyWith .mul false [.engine]).pend = some ⟨.mul, false⟩ ∧ (busyWith .mul false [.engine]).inputs = .engine :: []) ∧
      (busyWith .mul false []).inputs = [] := by decide

theorem witness_AcceptanceMakesTheCommandPending :
    ((idle []).pend = none ∧ (Instr.build 32).wellFormed = true ∧
      ∀ len, Instr.build 32 = .auth len → 16 ≤ len.toNat → (idle []).status.tblPowers ≠ 0) ∧
    ((Instr.auth 15).wellFormed = true ∧
      ∀ len, Instr.auth 15 = .auth len → 16 ≤ len.toNat → (idle []).status.tblPowers ≠ 0) := by
  refine ⟨⟨rfl, by decide, fun len h => by cases h⟩, by decide, fun len h h16 => ?_⟩
  cases h
  exact absurd h16 (by decide)

theorem witness_IllegalOperandIsRejected :
    (idle []).pend = none ∧ (48#8).toNat ∉ [32, 64, 96, 128] ∧ 143 < (144#8).toNat ∧ 4 < (5#4).toNat := by decide

theorem witness_AuthWithoutTableIsRejected :
    (idle []).pend = none ∧ (idle []).status.tblPowers = 0 ∧ 16 ≤ (16#8).toNat ∧ (16#8).toNat ≤ 143 ∧
      (143#8).toNat ≤ 143 := by decide

theorem witness_UndecodableWordIsRejected :
    (idle [wr32 0x10 0x05]).inputs = wr32 0x10 0x05 :: [] ∧ (idle [wr32 0x10 0x05]).inReset = false ∧
      (idle [wr32 0x10 0x05]).pend = none ∧ decode 0x00000005 = .error .illegalOpcode ∧
      decode 0x00000100 = .error .reservedNonzero ∧ decode 0x00000504 = .error .badRsel ∧
      decode 0x00100002 = .error .badSize ∧ decode 0x00900003 = .error .badLen := by decide

theorem witness_CmdWriteWhileBusyIsRejected :
    (busyWith .nop false [wr32 0x10 1]).inputs = wr32 0x10 1 :: [] ∧ (busyWith .nop false [wr32 0x10 1]).inReset = false ∧
      (busyWith .nop false [wr32 0x10 1]).pend = some ⟨.nop, false⟩ := by decide

theorem witness_RejectedCommandChangesOnlyErrorFields :
    ∃ s', (idle [wr32 0x10 5]).inputs = wr32 0x10 5 :: [] ∧ step (idle [wr32 0x10 5]) = .next s' ∧
      s'.pend = (idle [wr32 0x10 5]).pend := ⟨_, rfl, rfl, rfl⟩

theorem witness_NoCommandWordStopsTheBlock :
    (idle [wr32 0x10 1, .engine]).inputs = wr32 0x10 1 :: .engine :: [] ∧ (idle [wr32 0x10 1, .engine]).inReset = false := by
  decide

theorem witness_FirstErrorIsKept : (idle []).status.err = false ∧ (idle []).status.errMulti = false := by decide

theorem witness_StatusWriteClearsThroughW1CBits :
    (busyWith .mul false [wr32 0x0C 0xE]).inputs = wr32 0x0C 0xE :: [] ∧
      (busyWith .mul false [wr32 0x0C 0xE]).inReset = false := by decide

theorem witness_NopCompletes : (busyWith .nop true []).pend = some ⟨.nop, true⟩ := by decide

theorem witness_MulCompletesWithTheProduct : (busyWith .mul true []).pend = some ⟨.mul, true⟩ := by decide

theorem witness_BuildCompletesWithThePowers :
    (busyWith (.build 128) false []).pend = some ⟨.build 128, false⟩ ∧ (128#8).toNat ∈ [32, 64, 96, 128] := by decide

theorem witness_AuthCompletesWithTheGroupFold :
    stateA1.pend = some ⟨.auth 32, false⟩ ∧ (32#8).toNat ≤ 143 ∧
      (16 ≤ (32#8).toNat → stateA1.status.tblPowers ≠ 0) := by decide +kernel

theorem witness_NormCompletesWithTheReversal :
    (busyWith (.norm 4) true []).pend = some ⟨.norm (match DataReg.hkey with
      | .a => 0 | .b => 1 | .res => 2 | .acc => 3 | .hkey => 4), true⟩ := by decide

theorem witness_NormTwiceRestoresTheRegister :
    ∃ t t' u, (busyWith (.norm 4) true []).pend = some ⟨.norm 4, true⟩ ∧
      exec (.norm 4) (busyWith (.norm 4) true []) = .next t ∧
      t'.pend = some ⟨.norm 4, true⟩ ∧ t'.regs = t.regs ∧ exec (.norm 4) t' = .next u :=
  ⟨_, { complete (normEffect 4 true (busyWith (.norm 4) true [])) with pend := some ⟨.norm 4, true⟩ }, _,
    rfl, rfl, rfl, rfl, rfl⟩

theorem witness_MulEqualsTheBitSerialProduct : (busyWith .mul false []).pend = some ⟨.mul, false⟩ := by decide

/-- The table of vector A1 holds H and H^2. -/
theorem tableH_holds : tableHolds keyH 2 tableH := by
  intro k h1 h2
  obtain rfl | rfl : k = 1 ∨ k = 2 := by omega
  · decide +kernel
  · decide +kernel

theorem witness_AuthEqualsSequentialGhash :
    stateA1.pend = some ⟨.auth 32, false⟩ ∧ (32#8).toNat ≤ 143 ∧
      (16 ≤ (32#8).toNat → stateA1.status.tblPowers ≠ 0) ∧ stateA1.powers ≤ 8 ∧
      tableHolds stateA1.regs.hkey stateA1.powers stateA1.tbl :=
  ⟨by decide, by decide, fun _ => by decide, by decide, tableH_holds⟩

/-- The two halves of vector A1 as two AUTHs of one block. -/
def stateA1First : State := { stateA1 with pend := some ⟨.auth 16, false⟩ }

/-- The second AUTH: its block is the length block, its accumulator what the first left. -/
def stateA1Second : State :=
  { stateA1 with
    pend := some ⟨.auth 16, false⟩
    regs := { stateA1.regs with acc := (authEffect 16 stateA1First).regs.acc }
    blk := storeBlk 0 0x80 [] }

theorem witness_AuthSplitsAtBlockBoundaries :
    ∃ t₁ t₂, stateA1.pend = some ⟨.auth 32, false⟩ ∧ stateA1First.pend = some ⟨.auth 16, false⟩ ∧
      stateA1Second.pend = some ⟨.auth 16, false⟩ ∧ (32#8).toNat ≤ 143 ∧
      (32#8).toNat / 16 = (16#8).toNat / 16 + (16#8).toNat / 16 ∧
      (∀ x ∈ [stateA1, stateA1First, stateA1Second], x.regs.hkey = stateA1.regs.hkey ∧ x.powers ∈ [2, 4, 6, 8] ∧
        tableHolds stateA1.regs.hkey x.powers x.tbl) ∧
      (∀ i, i < (16#8).toNat / 16 → readBlk stateA1 i = readBlk stateA1First i) ∧
      (∀ i, i < (16#8).toNat / 16 → readBlk stateA1 ((16#8).toNat / 16 + i) = readBlk stateA1Second i) ∧
      stateA1First.regs.acc = stateA1.regs.acc ∧ exec (.auth 16) stateA1First = .next t₁ ∧
      stateA1Second.regs.acc = t₁.regs.acc ∧ exec (.auth 16) stateA1Second = .next t₂ := by
  refine ⟨complete (authEffect 16 stateA1First), _, rfl, rfl, rfl, by decide, by decide, ?_, fun _ _ => rfl, ?_, rfl, rfl,
    rfl, rfl⟩
  · intro x hx
    simp only [List.mem_cons, List.not_mem_nil, or_false] at hx
    rcases hx with rfl | rfl | rfl <;> exact ⟨rfl, by decide, tableH_holds⟩
  · intro i hi
    obtain rfl : i = 0 := by simpa using hi
    decide +kernel

theorem witness_FieldElementViewMapsTheBits : (0 : Nat) < 128 ∧ (127 : Nat) < 128 := by decide

/-- Each clause's offset, the last one at its edges. -/
theorem witness_ControlRegistersReadTheirFields :
    ∀ o ∈ [0x00, 0x04, 0x08, 0x0C, 0x10, 0x14, 0x18, 0x1C, 0x70, 0x7C], (idle [rd32 o]).inputs = rd32 o :: [] ∧
      (idle [rd32 o]).inReset = false ∧ o < 0x100 ∧ o % 4 = 0 ∧
      ∀ len rev, (idle [rd32 o]).pend ≠ some ⟨.auth len, rev⟩ := by
  intro o ho
  refine ⟨rfl, rfl, ?_, ?_, fun _ _ h => by cases h⟩ <;>
    · simp only [List.mem_cons, List.not_mem_nil, or_false] at ho
      omega

theorem witness_RegisterWordReadsLittleEndianLanes :
    (idle [rd32 (regOffset .hkey + 4 * 3)]).inputs = rd32 (regOffset .hkey + 4 * 3) :: [] ∧
      (idle [rd32 0x6C]).inReset = false ∧ (idle [rd32 0x6C]).pend = none ∧ (3 : Nat) < 4 := by decide

theorem witness_PendingOutputReadsAFreeValue :
    ((busyWith .mul false [rd32 0x4C]).pend = some ⟨.mul, false⟩ ∧ (busyWith .mul false [rd32 0x4C]).inReset = false ∧
      (3 : Nat) < 4 ∧ (busyWith .mul false [rd32 0x4C]).inputs = rd32 (regOffset .res + 4 * 3) :: []) ∧
    (busyWith (.auth 0) false [rd32 0x14]).inputs = rd32 0x14 :: [] ∧
      (busyWith (.auth 0) false [rd32 0x14]).pend = some ⟨.auth 0, false⟩ := by decide

theorem witness_BlockBufferReadsWrittenBytesOrDraws :
    ∀ o ∈ [0x80, 0xFC], (busyWith .mul false [rd32 o]).inputs = rd32 o :: [] ∧
      (busyWith .mul false [rd32 o]).inReset = false ∧ 0x80 ≤ o ∧ o < 0x100 ∧ o % 4 = 0 := by decide

theorem witness_CtrlWriteTakesThreeBits :
    (busyWith (.norm 3) true [wr32 0x08 0]).inputs = wr32 0x08 0 :: [] ∧
      (busyWith (.norm 3) true [wr32 0x08 0]).inReset = false := by decide

theorem witness_DataWordWriteReplacesFourBytes :
    (idle [wr32 0x5C 7]).inputs = wr32 (regOffset .acc + 4 * 3) 7 :: [] ∧ (idle [wr32 0x5C 7]).inReset = false ∧
      (idle [wr32 0x5C 7]).pend = none ∧ (3 : Nat) < 4 ∧
      (DataReg.acc = .a ∨ DataReg.acc = .b ∨ DataReg.acc = .acc) := by decide

theorem witness_HkeyWriteInvalidatesTheTable :
    (idle [wr32 0x6C 7]).inputs = wr32 (0x60 + 4 * 3) 7 :: [] ∧ (idle [wr32 0x6C 7]).inReset = false ∧
      (idle [wr32 0x6C 7]).pend = none ∧ (3 : Nat) < 4 := by decide

theorem witness_BlockBufferWriteStoresFourBytes :
    ∀ o ∈ [0x80, 0xFC], (idle [wr32 o 7]).inputs = wr32 o 7 :: [] ∧ (idle [wr32 o 7]).inReset = false ∧
      (idle [wr32 o 7]).pend = none ∧ 0x80 ≤ o ∧ o < 0x100 ∧ o % 4 = 0 := by decide

/-- The offsets at the edges of the three ranges. -/
theorem witness_DataWriteWhileBusyIsDropped :
    ∀ o ∈ [0x20, 0x3C, 0x50, 0x6C, 0x80, 0xFC], (busyWith .mul false [wr32 o 7]).inputs = wr32 o 7 :: [] ∧
      (busyWith .mul false [wr32 o 7]).inReset = false ∧ (busyWith .mul false [wr32 o 7]).pend = some ⟨.mul, false⟩ ∧
      o % 4 = 0 ∧ ((0x20 ≤ o ∧ o < 0x40) ∨ (0x50 ≤ o ∧ o < 0x70) ∨ (0x80 ≤ o ∧ o < 0x100)) := by decide

/-- The offsets at the edges of the four ranges. -/
theorem witness_ReadOnlyWritesAreIgnored :
    ∀ o ∈ [0x00, 0x04, 0x14, 0x1C, 0x40, 0x4C, 0x70, 0x7C], (busyWith .mul false [wr32 o 7]).inputs = wr32 o 7 :: [] ∧
      (busyWith .mul false [wr32 o 7]).inReset = false ∧ o % 4 = 0 ∧
      (o < 0x08 ∨ (0x14 ≤ o ∧ o < 0x20) ∨ (0x40 ≤ o ∧ o < 0x50) ∨ (0x70 ≤ o ∧ o < 0x80)) := by decide

/-- Reads of the written word, of another word, and of a control register. -/
theorem witness_WriteIsSeenByTheNextReadOnly :
    ∀ o' ∈ [0x60, 0xFC, 0x14], (idle [wr32 0x60 7, rd32 o']).inputs = wr32 0x60 7 :: rd32 o' :: [] ∧
      (idle [wr32 0x60 7, rd32 o']).inReset = false ∧ (idle [wr32 0x60 7, rd32 o']).pend = none ∧ 0x60 % 4 = 0 ∧
      ((0x20 ≤ 0x60 ∧ 0x60 < 0x40) ∨ (0x50 ≤ 0x60 ∧ 0x60 < 0x70) ∨ (0x80 ≤ 0x60 ∧ 0x60 < 0x100)) ∧
      o' % 4 = 0 ∧ o' < 0x100 ∧ o' ≠ 0x0C := by decide

theorem witness_FourWritesLoadARegister :
    (idle (wr128 (.data .hkey) keyH)).inputs = wr128 (.data .hkey) keyH ++ [] ∧
      (idle (wr128 (.data .res) keyH)).inputs = wr128 (.data .res) keyH ++ [] ∧
      (idle (wr128 (.data .hkey) keyH)).inReset = false ∧ (idle (wr128 (.data .hkey) keyH)).pend = none :=
  ⟨(List.append_nil _).symm, (List.append_nil _).symm, rfl, rfl⟩

/-- The last block of the buffer. -/
theorem witness_FourWritesLoadABlock :
    (idle (wrblk 7 blockC)).inputs = wrblk 7 blockC ++ [] ∧ (idle (wrblk 7 blockC)).inReset = false ∧
      (idle (wrblk 7 blockC)).pend = none ∧ (15 : Nat) < 16 :=
  ⟨(List.append_nil _).symm, rfl, rfl, by decide⟩

/-- A data register, and the last block of the buffer. -/
theorem witness_FourReadsReturnTheString :
    ∀ r ∈ [HostReg.data .hkey, HostReg.blk 7], (idle (rd128 r)).inputs = rd128 r ++ [] ∧
      (idle (rd128 r)).inReset = false ∧ (idle (rd128 r)).pend = none :=
  fun _ _ => ⟨(List.append_nil _).symm, rfl, rfl⟩

/-- Vector A1 in one chunk, and in two of one block each. -/
theorem witness_ChunkingLeavesTheSequentialGhash :
    ∃ y₁ y₂, chunkBlocks [(stateA1, 32)] = chunkBlocks [(stateA1First, 16), (stateA1Second, 16)] ∧
      chunkedAuths keyH stateA1.regs.acc [(stateA1, 32)] y₁ ∧
      chunkedAuths keyH stateA1.regs.acc [(stateA1First, 16), (stateA1Second, 16)] y₂ :=
  ⟨_, _, by decide +kernel,
    ⟨rfl, rfl, by decide, by decide, tableH_holds, ⟨_, rfl⟩, _, rfl, rfl⟩,
    ⟨rfl, rfl, by decide, by decide, tableH_holds, ⟨_, rfl⟩, complete (authEffect 16 stateA1First), rfl,
      ⟨rfl, rfl, by decide, by decide, tableH_holds, ⟨_, rfl⟩, _, rfl, rfl⟩⟩⟩

/-- A misaligned word at the window's end, and a partial access. -/
theorem witness_MisalignedOrPartialAccessFaults :
    ∀ t ∈ [BusTransaction.mk 0xFE 0xF .read, BusTransaction.mk 0x20 0x3 (.write 0)],
      (idle [.bus t]).inputs = .bus t :: [] ∧ (idle [.bus t]).inReset = false ∧ 0 ≤ t.off ∧ t.off < 0x100 ∧
        (t.off % 4 ≠ 0 ∨ t.strobes ≠ 0xF) := by decide

/-- The first address above the window, and its last word. -/
theorem witness_OnlyTheWindowReachesTheBlock :
    ((idle [busAt (Config.base + 0x100) 0xF .read]).inputs = busAt (Config.base + 0x100) 0xF .read :: [] ∧
      (idle [busAt (Config.base + 0x100) 0xF .read]).inReset = false ∧
      (Config.base + 0x100 < Config.base ∨ Config.base + 0x100 ≤ Config.base + 0x100)) ∧
    (idle [busAt (Config.base + 0xFC) 0xF .read]).inputs = busAt (Config.base + 0xFC) 0xF .read :: [] ∧
      (0xFC : Nat) < 0x100 ∧ Config.base + 0xFC = Config.base + 0xFC :=
  ⟨⟨rfl, rfl, .inr (Nat.le_refl _)⟩, rfl, by decide, rfl⟩

theorem witness_ResetAbandonsThePendingCommand :
    (busyWith (.auth 0) false [.assertReset, .releaseReset]).inputs = .assertReset :: .releaseReset :: [] := by decide

theorem witness_NoBusTransactionDuringReset :
    ({ idle [rd32 0] with inReset := true } : State).inputs = .bus ⟨0, 0xF, .read⟩ :: [] ∧
      ({ idle [rd32 0] with inReset := true } : State).inReset = true := by decide

/-- The invariant holds of a state with a valid table and an AUTH pending, and the state steps. -/
theorem witness_EveryStepKeepsTheInvariant : stateA1.Inv ∧ ∃ s', step stateA1 = .next s' := by
  refine ⟨⟨by decide +kernel, by decide, ⟨rfl, rfl⟩, by decide, by decide, tableH_holds, ?_, fun h => by cases h⟩, _, rfl⟩
  intro p hp
  cases hp
  exact ⟨by decide, rfl, fun h => absurd h (by decide), fun _ => by decide⟩

theorem witness_OnlyBuildChangesTheTable :
    ∃ s s', step s = .next s' ∧ s'.tbl ≠ s.tbl := by
  refine ⟨{ busyWith (.build 32) false [] with regs := { State.reset.regs with hkey := keyH } }, _, rfl, ?_⟩
  intro h
  have h1 := congrArg (fun t => Table.slot t 1) h
  revert h1
  decide +kernel

theorem witness_TblPowersHasFourWriters :
    (∃ s', step (busyWith (.build 32) false []) = .next s' ∧
      s'.status.tblPowers ≠ (busyWith (.build 32) false []).status.tblPowers) ∧
    (∃ s', step { stateA1 with pend := none, inputs := [wr32 0x60 0] } = .next s' ∧
      s'.status.tblPowers ≠ stateA1.status.tblPowers) :=
  ⟨⟨_, rfl, by decide +kernel⟩, _, rfl, by decide +kernel⟩

theorem witness_OnlyAuthWritesRemain :
    ∃ s', step stateA1 = .next s' ∧ s'.remain ≠ stateA1.remain := ⟨_, rfl, by decide +kernel⟩

theorem witness_OnlyCompletionOrResetEndsACommand :
    ∃ s', (busyWith .nop false [.engine]).pend = some ⟨.nop, false⟩ ∧ step (busyWith .nop false [.engine]) = .next s' :=
  ⟨_, rfl, rfl⟩

theorem witness_WaitingHostSeesTheCompletion :
    (busyWith .nop false (waitLine 1)).inputs = waitLine 1 ++ [] ∧ (busyWith .nop false (waitLine 1)).inReset = false ∧
      (busyWith .nop false (waitLine 1)).pend = some ⟨.nop, false⟩ := by decide

theorem witness_CompletionAndRejectionComeInEitherOrder :
    (busyWith .nop false []).inReset = false ∧ (busyWith .nop false []).pend = some ⟨.nop, false⟩ ∧
      decode 0x00000005 = .error .illegalOpcode := by decide

/-- An AUTH of 15 bytes pending, and the word of an AUTH of one block. -/
theorem witness_CompletionAndNoTableComeInEitherOrder :
    (busyWith (.auth 15) false []).inReset = false ∧ (busyWith (.auth 15) false []).pend = some ⟨.auth 15, false⟩ ∧
      (∀ l, (Instr.auth 15) ≠ .build l) ∧ (busyWith (.auth 15) false []).status.tblPowers = 0 ∧
      (∀ l, Instr.auth 15 = .auth l → l.toNat < 16) ∧ decode 0x00100003 = .ok (.auth 16) ∧
      16 ≤ (16#8).toNat ∧ (busyWith (.auth 15) false []).status.err = false := by
  refine ⟨rfl, rfl, (fun _ h => by cases h), rfl, fun l h => ?_, by decide, by decide, rfl⟩
  cases h
  decide

end Sys2Proof.Tests
end

section
/-! PROOFS. Words read as polynomials over the integers modulo 2 (00_scope.md R9): what the word operations of
Machine/Field.lean do to the polynomial. -/

namespace Sys2Proof.Machine

open Sys2Proof Polynomial

/-- The polynomial a word holds: bit `i` is the coefficient of `x^i` (00_scope.md R9). -/
noncomputable def toPolynomial {w : Nat} (v : BitVec w) : (ZMod 2)[X] :=
  ∑ i ∈ Finset.range w, if v.getLsbD i then X ^ i else 0

@[simp] theorem coeff_toPolynomial {w : Nat} (v : BitVec w) (k : Nat) :
    (toPolynomial v).coeff k = if v.getLsbD k then 1 else 0 := by
  have hterm : ∀ i, (if v.getLsbD i then (X : (ZMod 2)[X]) ^ i else 0).coeff k =
      if k = i then (if v.getLsbD k then 1 else 0) else 0 := by
    intro i
    by_cases hk : k = i
    · subst hk
      split <;> simp
    · split <;> simp [coeff_X_pow, hk]
  rw [toPolynomial, finsetSum_coeff, Finset.sum_congr rfl fun i _ => hterm i, Finset.sum_ite_eq]
  by_cases hk : k < w
  · simp [hk]
  · simp [hk, BitVec.getLsbD_of_ge v k (by omega)]

theorem degree_toPolynomial_lt {w : Nat} (v : BitVec w) : (toPolynomial v).degree < w :=
  (degree_lt_iff_coeff_zero _ _).mpr fun k hk => by simp [BitVec.getLsbD_of_ge v k hk]

@[simp] theorem toPolynomial_zero (w : Nat) : toPolynomial (0#w) = 0 := by
  ext k
  simp

theorem toPolynomial_one {w : Nat} (hw : 0 < w) : toPolynomial (1#w) = 1 := by
  ext k
  simp [coeff_one, hw, eq_comm]

@[simp] theorem toPolynomial_xor {w : Nat} (a b : BitVec w) :
    toPolynomial (a ^^^ b) = toPolynomial a + toPolynomial b := by
  ext k
  cases ha : a.getLsbD k <;> cases hb : b.getLsbD k <;> simp [ha, hb, CharTwo.add_self_eq_zero]

theorem toPolynomial_setWidth {w n : Nat} (hn : w ≤ n) (v : BitVec w) :
    toPolynomial (v.setWidth n) = toPolynomial v := by
  ext k
  have hk : v.getLsbD k = true → k < n := fun h => (BitVec.lt_of_getLsbD h).trans_le hn
  simp only [coeff_toPolynomial, BitVec.getLsbD_setWidth, Bool.and_eq_true, decide_eq_true_eq]
  exact if_congr (and_iff_right_of_imp hk) rfl rfl

theorem getLsbD_setWidth_high {w n i : Nat} (v : BitVec w) (hi : w ≤ i) : (v.setWidth n).getLsbD i = false := by
  rw [BitVec.getLsbD_setWidth, BitVec.getLsbD_of_ge v i hi, Bool.and_false]

/-- A left shift that loses no bit multiplies by a power of `x`. -/
theorem toPolynomial_shiftLeft {w n d : Nat} {v : BitVec w} (hv : ∀ i, d ≤ i → v.getLsbD i = false) (hn : d + n ≤ w) :
    toPolynomial (v <<< n) = toPolynomial v * X ^ n := by
  ext k
  rw [coeff_mul_X_pow', coeff_toPolynomial, coeff_toPolynomial, BitVec.getLsbD_shiftLeft]
  by_cases hk : n ≤ k
  · have hlost : ¬ k < w → v.getLsbD (k - n) = false := fun h => hv _ (by omega)
    by_cases hw : k < w
    · simp [hk, hw, Nat.not_lt.mpr hk]
    · simp [hw, hlost hw]
  · simp [hk, Nat.lt_of_not_le hk]

/-- A word is its low part plus its high part times a power of `x`. -/
theorem toPolynomial_split {w l h : Nat} (v : BitVec w) (hw : w = l + h) :
    toPolynomial v = toPolynomial (v.extractLsb' 0 l) + toPolynomial (v.extractLsb' l h) * X ^ l := by
  ext k
  rw [coeff_add, coeff_mul_X_pow']
  simp only [coeff_toPolynomial, BitVec.getLsbD_extractLsb']
  by_cases hk : k < l
  · simp [hk]
  · have hbit : v.getLsbD k = true → k - l < h := fun hb => by have := BitVec.lt_of_getLsbD hb; omega
    have hle : l ≤ k := by omega
    simp only [hk, hle, Nat.add_sub_cancel' hle, decide_false, Bool.false_and, Bool.false_eq_true, if_false, if_true,
      zero_add, Bool.and_eq_true, decide_eq_true_eq]
    exact if_congr (and_iff_right_of_imp hbit).symm rfl rfl

/-! ### The carry-less product (41_field_primitive.md R121) -/

/-- The first `n` terms are the part of `a` below `x^n`, times `b`. -/
theorem toPolynomial_clmulTerms (a b : Half) {n : Nat} (hn : n ≤ 64) :
    toPolynomial (clmulTerms a (b.setWidth 128) n) =
      (∑ i ∈ Finset.range n, if a.getLsbD i then X ^ i else 0) * toPolynomial b := by
  induction n with
  | zero => simp [clmulTerms]
  | succ n ih =>
    have hterm : toPolynomial (if a.getLsbD n then b.setWidth 128 <<< n else 0) =
        (if a.getLsbD n then X ^ n else 0) * toPolynomial b := by
      split
      · rw [toPolynomial_shiftLeft (fun _ => getLsbD_setWidth_high b) (by omega), toPolynomial_setWidth (by omega), mul_comm]
      · simp
    rw [clmulTerms, toPolynomial_xor, ih (by omega), hterm, Finset.sum_range_succ, add_mul]

theorem toPolynomial_clmul64 (a b : Half) : toPolynomial (clmul64 a b) = toPolynomial a * toPolynomial b :=
  toPolynomial_clmulTerms a b le_rfl

theorem toPolynomial_eq_lo_add_hi (p : Poly) : toPolynomial p = toPolynomial (lo p) + toPolynomial (hi p) * X ^ 64 := by
  rw [toPolynomial_split p (show 128 = 64 + 64 by omega), lo, hi]

/-- The three partial products, at their weights, make the product (41_field_primitive.md R124). -/
theorem toPolynomial_partials (a b : Poly) :
    toPolynomial (partialLL a b) + toPolynomial (partialX a b) * X ^ 64 + toPolynomial (partialHH a b) * X ^ 128 =
      toPolynomial a * toPolynomial b := by
  rw [partialLL, partialX, partialHH, toPolynomial_xor, toPolynomial_eq_lo_add_hi a, toPolynomial_eq_lo_add_hi b]
  simp only [toPolynomial_clmul64]
  ring

/-! ### The reduction modulo g (00_scope.md R12, 41_field_primitive.md R126) -/

/-- The terms of g below `x^128`, by which a fold multiplies. -/
noncomputable def fieldTail : (ZMod 2)[X] := X ^ 7 + X ^ 2 + X + 1

/-- The field polynomial g (00_scope.md R12). -/
noncomputable def fieldModulus : (ZMod 2)[X] := X ^ 128 + X ^ 7 + X ^ 2 + X + 1

theorem monic_fieldModulus : fieldModulus.Monic := by
  unfold fieldModulus
  monicity!

theorem degree_fieldModulus : fieldModulus.degree = (128 : ℕ) := by
  unfold fieldModulus
  compute_degree!

/-- Modulo g the weight `x^128` is the tail. -/
theorem X_pow_eq_fieldModulus_add_fieldTail : (X : (ZMod 2)[X]) ^ 128 = fieldModulus + fieldTail := by
  rw [show fieldModulus = X ^ 128 + fieldTail by unfold fieldModulus fieldTail; ring, add_assoc,
    CharTwo.add_self_eq_zero, add_zero]

theorem toPolynomial_foldOnce {w d : Nat} {v : BitVec w} (hv : ∀ i, d ≤ i → v.getLsbD i = false) (hw : d + 7 ≤ w) :
    toPolynomial (foldOnce v) = toPolynomial v * fieldTail := by
  rw [foldOnce, toPolynomial_xor, toPolynomial_xor, toPolynomial_xor, toPolynomial_shiftLeft hv (by omega),
    toPolynomial_shiftLeft hv (by omega), toPolynomial_shiftLeft hv (by omega), fieldTail]
  ring

theorem foldOnce_getLsbD_high {w d : Nat} {v : BitVec w} (hv : ∀ i, d ≤ i → v.getLsbD i = false) {i : Nat}
    (hi : d + 7 ≤ i) : (foldOnce v).getLsbD i = false := by
  simp only [foldOnce, BitVec.getLsbD_xor, BitVec.getLsbD_shiftLeft]
  rw [hv i (by omega), hv (i - 1) (by omega), hv (i - 2) (by omega), hv (i - 7) (by omega)]
  simp

/-- A word of two halves is, up to a multiple of g, its low half plus one fold of its high half. -/
theorem toPolynomial_fold_high (v : BitVec 256) :
    toPolynomial (v.extractLsb' 0 128) + toPolynomial (v.extractLsb' 128 128) * fieldTail +
      fieldModulus * toPolynomial (v.extractLsb' 128 128) = toPolynomial v := by
  rw [toPolynomial_split v (l := 128) (h := 128) (by omega), X_pow_eq_fieldModulus_add_fieldTail]
  ring

/-- Two folds take a word of two halves to the word of its remainder. -/
theorem toPolynomial_two_folds {d t : BitVec 256} {u : Poly} (ht : t = foldOnce ((d.extractLsb' 128 128).setWidth 256))
    (hu : u = foldOnce (t.extractLsb' 128 128)) :
    toPolynomial (d.extractLsb' 0 128 ^^^ t.extractLsb' 0 128 ^^^ u) +
      fieldModulus * (toPolynomial (d.extractLsb' 128 128) + toPolynomial (t.extractLsb' 128 128)) =
      toPolynomial d := by
  have hd : ∀ i, 128 ≤ i → ((d.extractLsb' 128 128).setWidth 256).getLsbD i = false :=
    fun _ => getLsbD_setWidth_high _
  have hthigh : ∀ i, 7 ≤ i → (t.extractLsb' 128 128).getLsbD i = false := fun i hi => by
    rw [BitVec.getLsbD_extractLsb', ht, foldOnce_getLsbD_high hd (by omega), Bool.and_false]
  have htfold : toPolynomial t = toPolynomial (d.extractLsb' 128 128) * fieldTail := by
    rw [ht, toPolynomial_foldOnce hd (by omega), toPolynomial_setWidth (by omega)]
  have hufold : toPolynomial u = toPolynomial (t.extractLsb' 128 128) * fieldTail := by
    rw [hu, toPolynomial_foldOnce hthigh (by omega)]
  rw [← toPolynomial_fold_high d, ← htfold, ← toPolynomial_fold_high t, ← hufold, toPolynomial_xor, toPolynomial_xor]
  ring

/-- The reduction leaves the remainder modulo g of the weighted partial products (41_field_primitive.md R126). -/
theorem toPolynomial_reduce (c0 c1 c2 : Poly) :
    toPolynomial (reduce c0 c1 c2) =
      (toPolynomial c2 + toPolynomial c1 * X ^ 64 + toPolynomial c0 * X ^ 128) %ₘ fieldModulus := by
  have hsum : toPolynomial (c2.setWidth 256 ^^^ c1.setWidth 256 <<< 64 ^^^ c0.setWidth 256 <<< 128) =
      toPolynomial c2 + toPolynomial c1 * X ^ 64 + toPolynomial c0 * X ^ 128 := by
    rw [toPolynomial_xor, toPolynomial_xor, toPolynomial_shiftLeft (fun _ => getLsbD_setWidth_high c1) (by omega),
      toPolynomial_shiftLeft (fun _ => getLsbD_setWidth_high c0) (by omega)]
    simp only [toPolynomial_setWidth (show 128 ≤ 256 by omega)]
  have hdegree : (toPolynomial (reduce c0 c1 c2)).degree < fieldModulus.degree := by
    rw [degree_fieldModulus]
    exact degree_toPolynomial_lt _
  rw [← hsum]
  exact (div_modByMonic_unique _ _ monic_fieldModulus ⟨toPolynomial_two_folds rfl rfl, hdegree⟩).2.symm

/-- 00_scope.md R12: the field product is the remainder of the product modulo g. -/
theorem toPolynomial_fieldMul (a b : Poly) :
    toPolynomial (fieldMul a b) = (toPolynomial a * toPolynomial b) %ₘ fieldModulus := by
  rw [fieldMul, toPolynomial_reduce, toPolynomial_partials]

/-! ### The field-element view (00_scope.md R10) -/

theorem getLsbD_fe (r : Block) {i : Nat} (hi : i < 128) :
    (fe r).getLsbD i = (byteOf r (i / 8)).getLsbD (7 - i % 8) := by
  have hindex : 8 * (15 - i / 8) + (7 - i % 8) = 127 - i := by omega
  have hbit : 7 - i % 8 < 8 := by omega
  rw [byteOf, BitVec.getLsbD_extractLsb', hindex, decide_eq_true hbit, Bool.true_and, fe, BitVec.getLsbD_reverse,
    BitVec.getMsbD_eq_getLsbD, decide_eq_true hi, Bool.true_and]

theorem fe_zero : fe 0x00000000000000000000000000000000 = 0#128 := by decide +kernel

theorem fe_one : fe 0x80000000000000000000000000000000 = 1#128 := by decide +kernel

/-! ### The obligations of 00_scope.md -/

/-- Settles O24: the bits by `getLsbD_fe`, the inverse by the laws of the view. -/
theorem fieldElementViewMapsTheBits : Obligations.FieldElementViewMapsTheBits :=
  ⟨fun r _ hi => getLsbD_fe r hi, bytesOf_fe, fe_bytesOf⟩

/-- Settles O26: the partial products make the product, and the two folds leave its remainder modulo g. -/
theorem fieldProductIsProductModuloG : Obligations.FieldProductIsProductModuloG := by
  unfold Obligations.FieldProductIsProductModuloG
  intro poly g
  have hpoly : poly = toPolynomial := rfl
  have hg : g = fieldModulus := by unfold fieldModulus; rfl
  rw [hpoly, hg, fe_zero, fe_one]
  exact ⟨toPolynomial_fieldMul, toPolynomial_zero 128, toPolynomial_one (by omega)⟩

end Sys2Proof.Machine
end

section
/-! PROOFS. The invariant of the block over every step (10_state.md R33 to R44): what an Effect writes, and one lemma
for each change that a step makes. -/

namespace Sys2Proof.Machine

open Sys2Proof

/-! ### The table a BUILD leaves (42_table_builder.md R151, R152) -/

theorem fieldMul_fe_selfProduct (h : Block) (k : Nat) :
    fieldMul (fe (selfProduct h k)) (fe h) = fe (selfProduct h (k + 1)) := by
  rw [selfProduct, gfmul, fe_bytesOf]

/-- From slot `k + 1` on, which takes H^(k+1), the loop of R151 fills `count` slots with the powers of H. -/
theorem slot_buildSlots (h : Block) {count k j : Nat} (t : Table) (hfit : k + count ≤ 8) (hj : 1 ≤ j) :
    Table.slot (buildSlots (fe h) count (k + 1) (fe (selfProduct h k)) t) j =
      if k < j ∧ j ≤ k + count then fe (selfProduct h (j - 1)) else Table.slot t j := by
  induction count generalizing k t with
  | zero => rw [buildSlots, if_neg (by omega)]
  | succ count ih =>
    rw [buildSlots, fieldMul_fe_selfProduct, ih _ (by omega), Table.slot_setSlot t (by omega) hj]
    by_cases hfirst : j = k + 1
    · subst hfirst
      simp
    · have hrange : k + 1 < j ∧ j ≤ k + 1 + count ↔ k < j ∧ j ≤ k + (count + 1) := by omega
      rw [if_neg hfirst]
      exact if_congr hrange rfl rfl

theorem tableHolds_zero (h : Block) (t : Table) : tableHolds h 0 t := fun _ _ _ => by omega

theorem tableHolds_buildSlots (h : Block) {n : Nat} (t : Table) (hn : n ≤ 8) :
    tableHolds h n (buildSlots (fe h) n 1 (fe h) t) := fun k hk hkn =>
  (slot_buildSlots h t (k := 0) (by omega) hk).trans (if_pos (by omega))

/-! ### What an Effect writes -/

/-- A legal BUILD makes 2, 4, 6 or 8 powers (30_encoding.md R84). -/
theorem wholeBlocks_of_build {len : BitVec 8} (hw : (Instr.build len).wellFormed = true) :
    wholeBlocks len ∈ [2, 4, 6, 8] := by
  have hlen : len.toNat ∈ [32, 64, 96, 128] := of_decide_eq_true hw
  simp only [List.mem_cons, List.not_mem_nil, or_false] at hlen
  rcases hlen with h | h | h | h <;> simp [wholeBlocks, h]

/-- TBL_POWERS as a BUILD writes it: LEN div 16 fits its four bits. -/
theorem toNat_ofNat_wholeBlocks (len : BitVec 8) : (BitVec.ofNat 4 (wholeBlocks len)).toNat = wholeBlocks len := by
  rw [BitVec.toNat_ofNat, Nat.mod_eq_of_lt]
  exact Nat.div_lt_of_lt_mul len.isLt

/-- Only Effect(BUILD) writes TBL_POWERS (10_state.md R33). -/
theorem effectOf_tblPowers (i : Instr) (revS : Bool) (s : State) :
    (effectOf i revS s).status.tblPowers = s.status.tblPowers ∨
    ∃ len, i = .build len ∧ (effectOf i revS s).status.tblPowers = BitVec.ofNat 4 (wholeBlocks len) := by
  cases i with
  | nop => exact .inl rfl
  | mul => exact .inl rfl
  | build len => exact .inr ⟨len, rfl, rfl⟩
  | auth len => exact .inl rfl
  | norm rsel => rcases normEffect_eq rsel revS s with h | ⟨r, -, -, h⟩ <;> exact .inl (by simp [effectOf, h])

/-- Only Effect(AUTH) writes REMAIN (10_state.md R35). -/
theorem effectOf_remain (i : Instr) (revS : Bool) (s : State) :
    (effectOf i revS s).remain = s.remain ∨
    ∃ len, i = .auth len ∧ (effectOf i revS s).remain =
      ⟨BitVec.ofNat 4 (trailingBytes len), BitVec.ofNat 8 (16 * wholeBlocks len)⟩ := by
  cases i with
  | nop => exact .inl rfl
  | mul => exact .inl rfl
  | build len => exact .inl rfl
  | auth len => exact .inr ⟨len, rfl, rfl⟩
  | norm rsel => rcases normEffect_eq rsel revS s with h | ⟨r, -, -, h⟩ <;> exact .inl (by simp [effectOf, h])

theorem effectOf_powers_legal {i : Instr} {revS : Bool} {s : State} (hw : i.wellFormed = true)
    (hpowers : s.powers ∈ [0, 2, 4, 6, 8]) : (effectOf i revS s).powers ∈ [0, 2, 4, 6, 8] := by
  rw [powers_eq]
  rcases effectOf_tblPowers i revS s with h | ⟨len, rfl, h⟩ <;> rw [h]
  · exact hpowers
  · rw [toNat_ofNat_wholeBlocks]
    exact List.mem_cons_of_mem 0 (wholeBlocks_of_build hw)

theorem effectOf_consumed_legal {i : Instr} {revS : Bool} {s : State} (hw : i.wellFormed = true)
    (hconsumed : s.remain.consumed.toNat % 16 = 0 ∧ s.remain.consumed.toNat ≤ 128) :
    (effectOf i revS s).remain.consumed.toNat % 16 = 0 ∧ (effectOf i revS s).remain.consumed.toNat ≤ 128 := by
  rcases effectOf_remain i revS s with h | ⟨len, rfl, h⟩ <;> rw [h]
  · exact hconsumed
  · have hlen : len.toNat ≤ 143 := of_decide_eq_true hw
    simp only [wholeBlocks, BitVec.toNat_ofNat]
    omega

theorem DataRegs.hkey_write_of_ne (x : DataRegs) {r : DataReg} (v : Block) (hr : r ≠ .hkey) :
    (x.write r v).hkey = x.hkey := by
  cases r with
  | hkey => exact absurd rfl hr
  | _ => rfl

/-- The Effect of a pending command leaves a valid table valid: the one that changes HKEY finds no table. -/
theorem effectOf_tableHolds {i : Instr} {revS : Bool} {s : State} (hw : i.wellFormed = true)
    (hinvalid : invalidatesTable i revS = true → s.status.tblPowers = 0)
    (htable : tableHolds s.regs.hkey s.powers s.tbl) :
    tableHolds (effectOf i revS s).regs.hkey (effectOf i revS s).powers (effectOf i revS s).tbl := by
  cases i with
  | nop => exact htable
  | mul => exact htable
  | build len =>
    have hn : wholeBlocks len ≤ 8 := by
      have hmem := wholeBlocks_of_build hw
      simp only [List.mem_cons, List.not_mem_nil, or_false] at hmem
      omega
    have hpowers : (buildEffect len s).powers = wholeBlocks len := toNat_ofNat_wholeBlocks len
    rw [effectOf, hpowers]
    exact tableHolds_buildSlots s.regs.hkey s.tbl hn
  | auth len => exact htable
  | norm rsel =>
    rw [effectOf]
    rcases normEffect_eq rsel revS s with h | ⟨r, hr, hrev, h⟩ <;> rw [h]
    · exact htable
    · by_cases hkey : r = .hkey
      · have hzero : s.powers = 0 := by simp [powers_eq, hinvalid (by simp [invalidatesTable, hr, hrev, hkey])]
        rw [show (s.setReg r (rev16 (s.regs.read r))).powers = 0 from hzero]
        exact tableHolds_zero _ _
      · rw [setReg_regs, DataRegs.hkey_write_of_ne _ _ hkey]
        exact htable

/-! ### The clauses of the invariant on STATUS -/

theorem errorCode_legal (e : CmdError) : 1 ≤ (errorCode e).toNat ∧ (errorCode e).toNat ≤ 8 := by
  cases e <;> decide

/-- A write to STATUS, field by field (60_exceptions.md R230). -/
theorem clearStatus_eq (d : Word32) (s : State) : clearStatus d s = { s with status := { s.status with
    done := s.status.done && !d.getLsbD 1
    err := s.status.err && !d.getLsbD 2
    errMulti := s.status.errMulti && !d.getLsbD 2
    errCode := if d.getLsbD 2 then 0 else s.status.errCode } } := by
  unfold clearStatus
  cases d.getLsbD 1 <;> cases d.getLsbD 2 <;> simp

theorem errorFieldsLegal_raiseError (e : CmdError) {s : State} (h : errorFieldsLegal s.status) :
    errorFieldsLegal (raiseError e s).status := by
  rw [raiseError_eq]
  cases herr : s.status.err with
  | true => simpa [errorFieldsLegal, herr] using h
  | false => simpa [errorFieldsLegal] using errorCode_legal e

theorem errorFieldsLegal_clearStatus (d : Word32) {s : State} (h : errorFieldsLegal s.status) :
    errorFieldsLegal (clearStatus d s).status := by
  rw [clearStatus_eq]
  cases hd : d.getLsbD 2 with
  | true => simp [errorFieldsLegal]
  | false => simpa [errorFieldsLegal] using h

/-- A change of STATUS that sets no DONE and keeps TBL_POWERS keeps the pending command legal. -/
theorem pendingLegal.of_status {p : Pending} {st st' : Status} (h : pendingLegal p st)
    (hdone : st.done = false → st'.done = false) (hpowers : st'.tblPowers = st.tblPowers) : pendingLegal p st' := by
  obtain ⟨hw, hd, hinvalid, hneeds⟩ := h
  exact ⟨hw, hdone hd, by rwa [hpowers], by rwa [hpowers]⟩

/-- No command both invalidates the table and reads it. -/
theorem invalidatesTable_of_needsTable {i : Instr} {rev : Bool} (h : needsTable i = true) :
    invalidatesTable i rev = false := by
  cases i with
  | auth len => rfl
  | _ => cases h

/-- An acceptance leaves the accepted command legal (40_command_issue.md R102). -/
theorem pendingLegal_accept {i : Instr} {s : State} (hw : i.wellFormed = true)
    (hneeds : needsTable i = true → s.status.tblPowers ≠ 0) : pendingLegal ⟨i, s.rev⟩ (accept i s).status := by
  refine ⟨hw, rfl, fun hinvalid => if_pos hinvalid, fun hn => ?_⟩
  simpa [invalidatesTable_of_needsTable hn] using hneeds hn

/-! ### The invariant under each change of a step -/

theorem turn_inv {s : State} (hs : s.Inv) (rest : List Input) : (turn rest s).Inv :=
  { hs with reset_held := hs.reset_held }

theorem State.Inv.not_inReset_of_pend {s : State} (hs : s.Inv) {p : Pending} (hp : s.pend = some p) :
    s.inReset = false := by
  cases hr : s.inReset with
  | false => rfl
  | true =>
    obtain ⟨-, -, -, -, -, hnone⟩ := hs.reset_held hr
    cases hp.symm.trans hnone

/-- A clause about reset being asserted holds of every state out of reset. -/
theorem absurd_inReset {s : State} {P : Prop} (hr : s.inReset = false) (h : s.inReset = true) : P :=
  absurd h (by simp [hr])

theorem complete_inv {s : State} (hs : s.Inv) {p : Pending} (hp : s.pend = some p) :
    (complete (effectOf p.instr p.revS s)).Inv := by
  obtain ⟨hw, -, hinvalid, -⟩ := hs.pending_legal p hp
  obtain ⟨regs, remain, tbl, n, hframe⟩ := effectOf_frame p.instr p.revS s
  exact {
    blk_wf := by simpa [hframe] using hs.blk_wf
    powers_legal := effectOf_powers_legal hw hs.powers_legal
    errors_legal := by simpa [hframe, errorFieldsLegal] using hs.errors_legal
    consumed_legal := effectOf_consumed_legal hw hs.consumed_legal
    parts_bounded := by simp [freePartials]
    table_valid := effectOf_tableHolds hw hinvalid hs.table_valid
    pending_legal := by simp
    reset_held := by simp [hframe, hs.not_inReset_of_pend hp] }

theorem clearStatus_inv {s : State} (hs : s.Inv) (d : Word32) (hr : s.inReset = false) : (clearStatus d s).Inv where
  blk_wf := hs.blk_wf
  powers_legal := by simpa [powers_eq] using hs.powers_legal
  errors_legal := errorFieldsLegal_clearStatus d hs.errors_legal
  consumed_legal := hs.consumed_legal
  parts_bounded := hs.parts_bounded
  table_valid := by simpa [powers_eq] using hs.table_valid
  pending_legal p hp := (hs.pending_legal p hp).of_status (fun h => by simp [h]) (by simp)
  reset_held := absurd_inReset hr

theorem raiseError_inv {s : State} (hs : s.Inv) (e : CmdError) (hr : s.inReset = false) : (raiseError e s).Inv where
  blk_wf := by simpa using hs.blk_wf
  powers_legal := by simpa [powers_eq] using hs.powers_legal
  errors_legal := errorFieldsLegal_raiseError e hs.errors_legal
  consumed_legal := by simpa using hs.consumed_legal
  parts_bounded := by simpa using hs.parts_bounded
  table_valid := by simpa [powers_eq] using hs.table_valid
  pending_legal p hp := (hs.pending_legal p (by simpa using hp)).of_status (fun h => by simp [h]) (by simp)
  reset_held := by simp [hr]

/-- An acceptance keeps the table or invalidates it. -/
theorem accept_inv {s : State} (hs : s.Inv) {i : Instr} (hr : s.inReset = false) (hw : i.wellFormed = true)
    (hneeds : needsTable i = true → s.status.tblPowers ≠ 0) : (accept i s).Inv := by
  have hpowers : (accept i s).powers = s.powers ∨ (accept i s).powers = 0 := by
    cases h : invalidatesTable i s.rev <;> simp [powers_eq, h]
  refine { hs with
    powers_legal := ?_
    table_valid := ?_
    pending_legal := ?_
    reset_held := absurd_inReset hr }
  · rcases hpowers with h | h <;> rw [h]
    · exact hs.powers_legal
    · exact List.mem_cons_self
  · rcases hpowers with h | h <;> rw [h]
    · exact hs.table_valid
    · exact tableHolds_zero _ _
  · rintro p ⟨⟩
    exact pendingLegal_accept hw hneeds

theorem writeRegWord_inv {s : State} (hs : s.Inv) {r : DataReg} (j : Nat) (d : Word32) (hr : s.inReset = false)
    (hkey : r ≠ .hkey) : (writeRegWord r j d s).Inv :=
  { hs with
    table_valid := (DataRegs.hkey_write_of_ne s.regs _ hkey).symm ▸ hs.table_valid
    reset_held := absurd_inReset hr }

theorem writeHkeyWord_inv {s : State} (hs : s.Inv) (j : Nat) (d : Word32) (hr : s.inReset = false)
    (hp : s.pend = none) : (clearPowers (writeRegWord .hkey j d s)).Inv :=
  { hs with
    powers_legal := List.mem_cons_self
    table_valid := tableHolds_zero _ _
    pending_legal := fun p h => by cases hp.symm.trans h
    reset_held := absurd_inReset hr }

theorem writeBlkWord_inv {s : State} (hs : s.Inv) {a : Nat} (d : Word32) (hr : s.inReset = false)
    (ha : 0x80 ≤ a ∧ a < 0x100 ∧ a % 4 = 0) : (writeBlkWord a d s).Inv :=
  { hs with
    blk_wf := Memory.wf_writeWord (by omega) hs.blk_wf
    reset_held := absurd_inReset hr }

theorem State.reset_inv : State.reset.Inv where
  blk_wf := rfl
  powers_legal := by decide
  errors_legal := ⟨rfl, rfl⟩
  consumed_legal := by decide
  parts_bounded := by decide
  table_valid := tableHolds_zero _ _
  pending_legal := by simp [State.reset]
  reset_held := by simp [State.reset]

theorem enterReset_inv (s : State) : (enterReset s).Inv :=
  { State.reset_inv with reset_held := fun _ => ⟨rfl, rfl, rfl, rfl, rfl, rfl⟩ }

theorem Change.inv {s s' : State} (h : Change s s') (hs : s.Inv) : s'.Inv := by
  cases h with
  | nothing => exact hs
  | completion p hp => exact complete_inv hs hp
  | read o hr ho => exact { hs with reset_held := absurd_inReset hr }
  | ctrlWrite c hr => exact { hs with reset_held := absurd_inReset hr }
  | statusWrite d hr => exact clearStatus_inv hs d hr
  | rejection e hr => exact raiseError_inv hs e hr
  | acceptance i hr hp hw hneeds => exact accept_inv hs hr hw hneeds
  | dataWrite r j d hr hp hreg => exact writeRegWord_inv hs j d hr (by rintro rfl; simp at hreg)
  | hkeyWrite j d hr hp => exact writeHkeyWord_inv hs j d hr hp
  | blkWrite a d hr hp ha => exact writeBlkWord_inv hs d hr ha
  | resetAsserted => exact enterReset_inv s
  | resetReleased => exact { hs with reset_held := fun h => by cases h }

/-- Settles O48: every step makes one of the listed changes, and each of them keeps the invariant. -/
theorem everyStepKeepsTheInvariant : Obligations.EveryStepKeepsTheInvariant := by
  intro s s' hs hstep
  obtain ⟨rest, hchange⟩ := step_change hstep
  exact hchange.inv (turn_inv hs rest)

/-- Settles O49: no table is valid and nothing is pending after reset. -/
theorem resetStateMeetsTheInvariant : Obligations.ResetStateMeetsTheInvariant := State.reset_inv

end Sys2Proof.Machine
end

section
/-! PROOFS. The state's rules, continued: who writes TBL_POWERS and REMAIN (10_state.md R33, R35), and the register
window's answers to single transactions (10_state.md R28, R37, R40, R43, R44). -/

namespace Sys2Proof.Machine

open Sys2Proof

/-! ### What the host's write of a word is -/

/-- What a CMD write can do: the recording of an error, or the acceptance of a command by an idle engine
(40_command_issue.md R101). -/
theorem presentCommand_cases (d : Word32) (s : State) :
    (∃ e, presentCommand d s = .next (raiseError e s)) ∨
    (s.pend = none ∧ ∃ i, presentCommand d s = .next (accept i s)) := by
  unfold presentCommand
  cases hp : s.pend with
  | some p => exact .inl ⟨.cmdBusy, by simp [hp]⟩
  | none =>
    simp only [busy_eq_isSome, hp, Option.isSome_none, Bool.false_eq_true, if_false]
    cases decodeFields d with
    | error e => exact .inl ⟨e, rfl⟩
    | ok i =>
      simp only [exec_idle hp]
      rcases issue_cases i s with ⟨e, -, h⟩ | ⟨-, -, -, h⟩ | ⟨-, -, h⟩ <;> rw [h]
      · exact .inl ⟨e, rfl⟩
      · exact .inl ⟨.noTable, rfl⟩
      · exact .inr ⟨trivial, i, rfl⟩

theorem guardedWrite_tblPowers {f : State → State} {s : State} (hf : (f s).status.tblPowers = s.status.tblPowers) :
    (guardedWrite f s).status.tblPowers = s.status.tblPowers := by
  unfold guardedWrite
  split
  · exact raiseError_tblPowers _ s
  · exact hf

/-- A write of a register other than CMD and HKEY keeps TBL_POWERS; of those two, an acceptance and a write with nothing
pending can change it (10_state.md R33). -/
theorem writeTarget_tblPowers {t : Target} {d : Word32} {s s' : State} (h : writeTarget t d s = .next s') :
    s'.status.tblPowers = s.status.tblPowers ∨ (s.pend = none ∧ ∃ i, s' = accept i s) ∨
    (s.pend = none ∧ s'.status.tblPowers = 0 ∧ ∃ j, t = .data .hkey j) := by
  cases t with
  | cmd =>
    rcases presentCommand_cases d s with ⟨e, he⟩ | ⟨hp, i, hi⟩
    · cases he.symm.trans h
      exact .inl (raiseError_tblPowers e s)
    · cases hi.symm.trans h
      exact .inr (.inl ⟨hp, i, rfl⟩)
  | status =>
    cases h
    exact .inl (clearStatus_tblPowers d s)
  | blk a =>
    cases h
    exact .inl (guardedWrite_tblPowers rfl)
  | data r j =>
    cases r with
    | hkey =>
      cases h
      cases hp : s.pend with
      | some p => exact .inl (by simp [guardedWrite, hp])
      | none => exact .inr (.inr ⟨rfl, by simp [guardedWrite, hp, clearPowers], j, rfl⟩)
    | res =>
      cases h
      exact .inl rfl
    | _ =>
      cases h
      exact .inl (guardedWrite_tblPowers rfl)
  | _ =>
    cases h
    exact .inl rfl

/-- The words of HKEY stand at 0x60 to 0x6C (10_state.md R36). -/
theorem target_hkey {o j : Nat} (ha : o % 4 = 0) (h : target o = .data .hkey j) : j < 4 ∧ o = 0x60 + 4 * j := by
  unfold target at h
  split at h
  case h_7 hrow =>
    cases h
    omega
  case h_1 => split at h <;> cases h
  case h_2 => split at h <;> cases h
  all_goals cases h

/-! ### What a step is -/

theorem engineStep_cases {s s' : State} (h : engineStep s = .next s') :
    s' = s ∨ ∃ p, s.pend = some p ∧ s' = complete (effectOf p.instr p.revS s) := by
  cases hp : s.pend with
  | none =>
    simp only [engineStep, hp] at h
    cases h
    exact .inl rfl
  | some p =>
    simp only [engineStep, hp, exec_pending hp] at h
    cases h
    exact .inr ⟨p, rfl, rfl⟩

/-- A host step that is performed is a word read or the write of a word, aligned and of all four lanes
(20_memory.md R56). -/
theorem hostStep_next_cases {t : BusTransaction} {s s' : State} (h : hostStep t s = .next s') :
    (∃ o, s' = busRead o s) ∨
    ∃ o d, o % 4 = 0 ∧ .bus t = wr32 o d ∧ writeTarget (target o) d s = .next s' := by
  rcases hostStep_cases t s with ⟨-, h'⟩ | ⟨-, -, h'⟩ | ⟨-, -, -, h'⟩ | ⟨hr, hw, hl, -⟩
  · cases h'.symm.trans h
  · cases h'.symm.trans h
  · cases h'.symm.trans h
  obtain ⟨off, strobes, access⟩ := t
  have hoff : 0 ≤ off := of_decide_eq_true (Bool.and_eq_true_iff.mp hw).1
  obtain ⟨ha, rfl⟩ : off.toNat % 4 = 0 ∧ strobes = 0xF := by simpa [legal] using hl
  simp only [hostStep, hr, hw, hl, Bool.false_eq_true, if_false, if_true] at h
  cases access with
  | read =>
    cases h
    exact .inl ⟨_, rfl⟩
  | write d => exact .inr ⟨off.toNat, d, ha, by rw [wr32, Int.toNat_of_nonneg hoff], h⟩

/-- A step that answers a next state is an engine step, a change of the reset input, a word read, or the write of a
word (20_memory.md R62). Beside `step_change` it says which input a write came from, which a `Change` does not
record. -/
theorem step_next_cases {s s' : State} (h : step s = .next s') : ∃ rest,
    engineStep (turn rest s) = .next s' ∨ s' = enterReset (turn rest s) ∨ s' = leaveReset (turn rest s) ∨
    (∃ o, s' = busRead o (turn rest s)) ∨
    ∃ o d, o % 4 = 0 ∧ s.inputs = wr32 o d :: rest ∧ writeTarget (target o) d (turn rest s) = .next s' := by
  unfold step at h
  cases hi : s.inputs with
  | nil => exact ⟨[], .inl (by simpa only [hi] using h)⟩
  | cons i rest =>
    simp only [hi] at h
    refine ⟨rest, ?_⟩
    cases i with
    | engine => exact .inl h
    | assertReset =>
      cases h
      exact .inr (.inl rfl)
    | releaseReset =>
      cases h
      exact .inr (.inr (.inl rfl))
    | bus t =>
      rcases hostStep_next_cases h with hread | ⟨o, d, ha, ht, hwrite⟩
      · exact .inr (.inr (.inr (.inl hread)))
      · exact .inr (.inr (.inr (.inr ⟨o, d, ha, by rw [ht], hwrite⟩)))

/-! ### The writers of TBL_POWERS and REMAIN -/

/-- The acceptances that invalidate the table (10_state.md R33, 44_normalizer.md R201). -/
theorem invalidatesTable_iff (i : Instr) (rev : Bool) :
    invalidatesTable i rev = true ↔ (∃ len, i = .build len) ∨ (i = .norm 4 ∧ rev = true) := by
  have hrsel (rsel : BitVec 4) : regOfRsel rsel = some .hkey ↔ rsel = 4 := by revert rsel; decide
  cases i <;> simp [invalidatesTable, hrsel]

/-- Settles O51: the step is a completion, an acceptance, a write of an HKEY word, or the assertion of reset, for every
other one keeps TBL_POWERS. -/
theorem tblPowersHasFourWriters : Obligations.TblPowersHasFourWriters := by
  intro s s' hstep hne
  obtain ⟨rest, hengine | rfl | rfl | ⟨o, rfl⟩ | ⟨o, d, ha, hi, hwrite⟩⟩ := step_next_cases hstep
  · rcases engineStep_cases hengine with rfl | ⟨p, hp, rfl⟩
    · exact absurd rfl hne
    · rcases effectOf_tblPowers p.instr p.revS (turn rest s) with h | ⟨len, hbuild, h⟩
      · exact absurd h hne
      · exact .inl ⟨len, p.revS, by rw [← hbuild]; exact hp, rfl, h⟩
  · exact .inr ⟨rfl, .inr (.inr (.inr rfl))⟩
  · exact absurd rfl hne
  · exact absurd rfl hne
  · rcases writeTarget_tblPowers hwrite with h | ⟨hp, i, rfl⟩ | ⟨hp, hzero, j, hj⟩
    · exact absurd h hne
    · have hinvalid : invalidatesTable i s.rev = true := by
        by_contra h
        exact hne (if_neg h)
      refine .inr ⟨if_pos hinvalid, ?_⟩
      rcases (invalidatesTable_iff i s.rev).mp hinvalid with ⟨len, rfl⟩ | ⟨rfl, hrev⟩
      · exact .inl ⟨hp, len, _, rfl⟩
      · exact .inr (.inl ⟨hp, hrev, by rw [← hrev]; rfl⟩)
    · obtain ⟨hj4, rfl⟩ := target_hkey ha hj
      exact .inr ⟨hzero, .inr (.inr (.inl ⟨hp, j, d, rest, hj4, hi⟩))⟩

/-- Settles O52: of the changes a step makes, only a completion and the assertion of reset write REMAIN, and of the
Effects only that of AUTH. -/
theorem onlyAuthWritesRemain : Obligations.OnlyAuthWritesRemain := by
  intro s s' hstep hne
  obtain ⟨rest, hchange⟩ := step_change hstep
  cases hchange with
  | completion p hp =>
    rcases effectOf_remain p.instr p.revS (turn rest s) with h | ⟨len, hauth, h⟩
    · exact absurd h hne
    · exact .inl ⟨len, p.revS, by rw [← hauth]; exact hp, rfl, h⟩
  | resetAsserted => exact .inr ⟨rfl, rfl⟩
  | rejection e hr => exact absurd (raiseError_remain e _) hne
  | _ => exact absurd rfl hne

/-! ### The register window's answers to single transactions -/

/-- The block buffer is no command's output (20_memory.md R58). -/
@[simp] theorem isOutput_blk (p : Pending) (a : Nat) : isOutput p (.blk a) = false := by
  unfold isOutput
  cases p.instr <;> rfl

theorem readTarget_blk (a : Nat) (s : State) :
    readTarget (.blk a) s = wordOfLanes fun b => blkByte s (a + b) := by
  cases hp : s.pend <;> simp [readTarget, hp]

theorem blkByte_eq_getD (s : State) (a : Nat) :
    blkByte s a = (Memory.lookup a s.blk).getD (Config.freeByte s.draws a) := by
  unfold blkByte
  cases Memory.lookup a s.blk <;> rfl

/-- Settles O34: the word at an offset of the block buffer has the four bytes from there on as its lanes. -/
theorem blockBufferReadsWrittenBytesOrDraws : Obligations.BlockBufferReadsWrittenBytesOrDraws := by
  intro s o rest hi hr hlow hhigh ha
  refine ⟨_, step_rd32 hi hr hhigh ha, fun b hb => ?_⟩
  rw [target_blkOffset hlow, readTarget_blk, laneOf_wordOfLanes _ hb, blkByte_eq_getD]
  rfl

/-- Bit 1 of STATUS is DONE (10_state.md R29). -/
theorem statusWord_getLsbD_one (s : State) : (statusWord s).getLsbD 1 = s.status.done := by
  simp only [statusWord, BitVec.getLsbD_append]
  simp

/-- Bit 2 of STATUS is ERR (10_state.md R29). -/
theorem statusWord_getLsbD_two (s : State) : (statusWord s).getLsbD 2 = s.status.err := by
  simp only [statusWord, BitVec.getLsbD_append]
  simp

/-- Settles O17: bits 1 and 2 of STATUS are DONE and ERR, bits 1 and 2 of CTRL the two enables. -/
theorem interruptFollowsStatusAndCtrl : Obligations.InterruptFollowsStatusAndCtrl := by
  refine ⟨fun s => ?_, rfl⟩
  have hdoneIE : (ctrlWord s).getLsbD 1 = s.doneIE := by simp [ctrlWord, State.doneIE]
  have herrIE : (ctrlWord s).getLsbD 2 = s.errIE := by simp [ctrlWord, State.errIE]
  rw [State.irq, statusWord_getLsbD_one, statusWord_getLsbD_two, hdoneIE, herrIE]

/-- Settles O35: the bits taken are the remainder of the data modulo 8, and the write asks for no BUSY. -/
theorem ctrlWriteTakesThreeBits : Obligations.CtrlWriteTakesThreeBits := by
  intro s d rest hi hr
  refine ⟨d.extractLsb' 0 3, step_wr32 hi hr (by omega) rfl, ?_⟩
  rw [BitVec.extractLsb'_toNat]
  rfl

/-- Settles O37: the target is word `j` of HKEY, whose write replaces its four bytes. -/
theorem hkeyWriteInvalidatesTheTable : Obligations.HkeyWriteInvalidatesTheTable := by
  intro s j d rest hi hr hp hj
  have hstep := step_wr32 hi hr (by omega) (by omega)
  rw [show target (0x60 + 4 * j) = .data .hkey j from target_reg .hkey hj] at hstep
  have hidle : (turn rest s).busy = false := by simp [hp]
  refine ⟨withWord s.regs.hkey j d, ?_, fun k hk => byteOf_withWord _ _ _ hk⟩
  rw [hstep, writeTarget, guardedWrite, hidle]
  rfl

/-- Settles O45: the fields of `State.reset`, read one by one. -/
theorem resetValuesAreTheTables : Obligations.ResetValuesAreTheTables :=
  ⟨rfl, fun _ => rfl, rfl, rfl, rfl, rfl, rfl, rfl, rfl⟩

end Sys2Proof.Machine
end

section
/-! PROOFS. The register window (20_memory.md R50 to R63): which transactions it accepts, what a read returns and what
a write replaces, and the host that waits on BUSY. -/

namespace Sys2Proof.Machine

open Sys2Proof

/-! ### The register map (10_state.md R36) -/

/-- The words of the data registers are aligned and inside the window. -/
theorem regOffset_word_inside (r : DataReg) {j : Nat} (hj : j < 4) :
    regOffset r + 4 * j < 0x100 ∧ (regOffset r + 4 * j) % 4 = 0 := by
  cases r <;> simp only [regOffset] <;> omega

theorem target_reserved {o : Nat} (ha : o % 4 = 0) (ho : (0x18 ≤ o ∧ o < 0x20) ∨ (0x70 ≤ o ∧ o < 0x80)) :
    target o = .reserved := by
  obtain ⟨m, rfl⟩ : 4 ∣ o := Nat.dvd_of_mod_eq_zero ha
  have hm : m = 6 ∨ m = 7 ∨ m = 28 ∨ m = 29 ∨ m = 30 ∨ m = 31 := by omega
  rcases hm with rfl | rfl | rfl | rfl | rfl | rfl <;> rfl

/-- What stands at the offsets that the host cannot write (10_state.md R24 to R27, R34). -/
theorem target_readOnly {o : Nat} (ha : o % 4 = 0)
    (ho : o < 0x08 ∨ (0x14 ≤ o ∧ o < 0x20) ∨ (0x40 ≤ o ∧ o < 0x50) ∨ (0x70 ≤ o ∧ o < 0x80)) :
    target o = .id ∨ target o = .cap ∨ target o = .remain ∨ (∃ j, target o = .data .res j) ∨
      target o = .reserved := by
  by_cases hres : 0x40 ≤ o ∧ o < 0x50
  · obtain ⟨j, hj, rfl⟩ : ∃ j, j < 4 ∧ o = 0x40 + 4 * j := ⟨(o - 0x40) / 4, by omega, by omega⟩
    exact .inr (.inr (.inr (.inl ⟨j, target_reg .res hj⟩)))
  have hcases : o = 0x00 ∨ o = 0x04 ∨ o = 0x14 ∨ (0x18 ≤ o ∧ o < 0x20) ∨ (0x70 ≤ o ∧ o < 0x80) := by omega
  rcases hcases with rfl | rfl | rfl | hreserved
  · exact .inl rfl
  · exact .inr (.inl rfl)
  · exact .inr (.inr (.inl rfl))
  · exact .inr (.inr (.inr (.inr (target_reserved ha hreserved))))

/-! ### Which transactions are accepted (20_memory.md R53, R56) -/

theorem step_bus {s : State} {t : BusTransaction} {rest : List Input} (hi : s.inputs = .bus t :: rest) :
    step s = hostStep t (turn rest s) := by
  simp only [step, hi, inputStep]

theorem inWindow_iff (off : Int) : inWindow off = true ↔ 0 ≤ off ∧ off < 0x100 := by
  rw [inWindow, Bool.and_eq_true, decide_eq_true_eq, decide_eq_true_eq]
  rfl

theorem legal_iff (t : BusTransaction) : legal t = true ↔ t.off.toNat % 4 = 0 ∧ t.strobes = 0xF := by
  simp [legal]

theorem hostStep_outside {t : BusTransaction} {s : State} (hr : s.inReset = false) (hw : ¬ (0 ≤ t.off ∧ t.off < 0x100)) :
    hostStep t s = .refused .outsideWindow := by
  rw [← inWindow_iff] at hw
  simp [hostStep, hr, hw]

theorem hostStep_illegal {t : BusTransaction} {s : State} (hr : s.inReset = false) (hw : 0 ≤ t.off ∧ t.off < 0x100)
    (hl : ¬ (t.off.toNat % 4 = 0 ∧ t.strobes = 0xF)) : hostStep t s = .fault .busFault := by
  rw [← inWindow_iff] at hw
  rw [← legal_iff] at hl
  simp [hostStep, hr, hw, hl]

/-- Settles O43: inside the window such an access is not legal. -/
theorem misalignedOrPartialAccessFaults : Obligations.MisalignedOrPartialAccessFaults := by
  intro s t rest hi hr hlow hhigh hbad
  rw [step_bus hi]
  refine hostStep_illegal hr ⟨hlow, hhigh⟩ ?_
  rintro ⟨ha, hstrobes⟩
  rcases hbad with hmisaligned | hpartial
  · omega
  · exact hpartial hstrobes

/-- Settles O44: the offset from BASE is below 0 or above 0xFF exactly outside the window, and `o` at BASE + `o`. -/
theorem onlyTheWindowReachesTheBlock : Obligations.OnlyTheWindowReachesTheBlock := by
  intro s addr strobes access rest hi hr
  rw [step_bus hi]
  constructor
  · intro houtside
    refine hostStep_outside hr ?_
    simp only [Config.offsetOf]
    omega
  · rintro o - rfl
    have hoffset : Config.offsetOf (Config.base + o) = o := by
      simp only [Config.offsetOf]
      omega
    rw [step_bus rfl, hoffset]
    rfl

/-! ### What a read returns (20_memory.md R58) -/

/-- The value BusRead returns at a target that is no output of the pending command: the second half of `readTarget`
(`readTarget_of_not_output`). -/
def heldWord (t : Target) (s : State) : Word32 :=
  match t with
  | .id => idWord
  | .cap => capWord
  | .ctrl => ctrlWord s
  | .status => statusWord s
  | .cmd => 0
  | .remain => remainWord s
  | .reserved => 0
  | .data r j => wordOf (s.regs.read r) j
  | .blk a => wordOfLanes fun b => blkByte s (a + b)

theorem readTarget_of_output {s : State} {p : Pending} {t : Target} (hp : s.pend = some p)
    (ho : isOutput p t = true) : readTarget t s = wordOfLanes (Config.freeByte s.draws) := by
  simp [readTarget, hp, ho]

theorem readTarget_of_not_output {s : State} {t : Target} (h : ∀ p, s.pend = some p → isOutput p t = false) :
    readTarget t s = heldWord t s := by
  have hnone : ¬ s.pend.any (isOutput · t) = true := by
    rw [Option.any_eq_true]
    rintro ⟨p, hp, ho⟩
    exact Bool.false_ne_true ((h p hp).symm.trans ho)
  exact if_neg hnone

/-- Among the control registers only REMAIN is ever an output. -/
theorem isOutput_control (p : Pending) {t : Target} (ht : t ∈ [.id, .cap, .ctrl, .status, .cmd, .reserved]) :
    isOutput p t = false := by
  obtain ⟨instr, rev⟩ := p
  simp only [List.mem_cons, List.not_mem_nil, or_false] at ht
  rcases ht with rfl | rfl | rfl | rfl | rfl | rfl <;> cases instr <;> rfl

theorem readTarget_control (s : State) {t : Target} (ht : t ∈ [.id, .cap, .ctrl, .status, .cmd, .reserved]) :
    readTarget t s = heldWord t s :=
  readTarget_of_not_output fun p _ => isOutput_control p ht

/-- REMAIN is an output of AUTH only. -/
theorem readTarget_remain {s : State} (hauth : ∀ len rev, s.pend ≠ some ⟨.auth len, rev⟩) :
    readTarget .remain s = remainWord s := by
  refine readTarget_of_not_output fun ⟨instr, rev⟩ hp => ?_
  cases instr with
  | auth len => exact absurd hp (hauth len rev)
  | _ => rfl

theorem ctrlWord_toNat (s : State) : (ctrlWord s).toNat = s.ctrl.toNat :=
  BitVec.toNat_setWidth_of_le (by omega)

/-- Settles O31: the step is the read of the offset's target, whose word is the sum of its fields. -/
theorem controlRegistersReadTheirFields : Obligations.ControlRegistersReadTheirFields := by
  intro s o rest hi hr ho ha
  refine ⟨_, _, step_rd32 hi hr ho ha, ?_, ?_, ?_, ?_, ?_, ?_, ?_⟩
  · rintro rfl
    exact readTarget_control (t := .id) _ (by decide)
  · rintro rfl
    exact readTarget_control (t := .cap) _ (by decide)
  · rintro rfl
    rw [show target 0x08 = .ctrl from rfl, readTarget_control _ (by decide), heldWord, ctrlWord_toNat]
    rfl
  · rintro rfl
    rw [show target 0x0C = .status from rfl, readTarget_control _ (by decide), heldWord, statusWord_toNat]
    rfl
  · rintro rfl
    exact readTarget_control (t := .cmd) _ (by decide)
  · rintro rfl hauth
    rw [show target 0x14 = .remain from rfl, readTarget_remain (s := turn rest s) hauth, remainWord_toNat]
    rfl
  · intro hmem
    have hreserved : (0x18 ≤ o ∧ o < 0x20) ∨ (0x70 ≤ o ∧ o < 0x80) := by
      simp only [List.mem_cons, List.not_mem_nil, or_false] at hmem
      omega
    rw [target_reserved ha hreserved]
    exact readTarget_control _ (by decide)

/-- A read of word `j` of a data register, out of reset (20_memory.md R55). -/
theorem step_read_reg {s : State} {r : DataReg} {j : Nat} {rest : List Input}
    (hi : s.inputs = rd32 (regOffset r + 4 * j) :: rest) (hr : s.inReset = false) (hj : j < 4) :
    step s = .next { turn rest s with
      rdata := some (readTarget (.data r j) (turn rest s)), draws := s.draws + 1 } := by
  obtain ⟨ho, ha⟩ := regOffset_word_inside r hj
  rw [step_rd32 hi hr ho ha, busRead, target_reg r hj]
  rfl

/-- Settles O32: with nothing pending no register is an output, and a bus word is the sum of its lanes. -/
theorem registerWordReadsLittleEndianLanes : Obligations.RegisterWordReadsLittleEndianLanes := by
  intro s r j rest hi hr hp hj
  refine ⟨_, _, step_read_reg hi hr hj, ?_⟩
  have hidle : ∀ p, (turn rest s).pend = some p → isOutput p (.data r j) = false := by simp [hp]
  rw [readTarget_of_not_output hidle, heldWord, wordOf, wordOfLanes_toNat]
  rfl

/-- A word of a data register while a command is pending (20_memory.md R58). -/
theorem readTarget_data_pending {s : State} {p : Pending} (hp : s.pend = some p) (r : DataReg) (j : Nat) :
    readTarget (.data r j) s = wordOfLanes
      (if isOutput p (.data r j) then Config.freeByte s.draws else fun b => byteOf (s.regs.read r) (4 * j + b)) := by
  cases ho : isOutput p (.data r j) with
  | true => exact readTarget_of_output hp ho
  | false => exact readTarget_of_not_output fun q hq => by cases hp.symm.trans hq; exact ho

/-- Which data register each command writes (20_memory.md R58). -/
theorem isOutput_data (p : Pending) (r : DataReg) (j : Nat) :
    isOutput p (.data r j) = match p.instr with
      | .nop => false
      | .mul => decide (r = .res)
      | .build _ => false
      | .auth _ => decide (r = .acc)
      | .norm rsel => decide (regOfRsel rsel = some r) := by
  obtain ⟨instr, rev⟩ := p
  cases instr with
  | mul => cases r <;> rfl
  | auth len => cases r <;> rfl
  | _ => rfl

/-- Settles O33: the word is a draw exactly if its register is an output, and REMAIN is an output of AUTH. -/
theorem pendingOutputReadsAFreeValue : Obligations.PendingOutputReadsAFreeValue := by
  intro s p rest hp hr
  have hp' : (turn rest s).pend = some p := hp
  constructor
  · intro r j hj hi output
    have hout : isOutput p (.data r j) = output := isOutput_data p r j
    rw [step_read_reg hi hr hj, readTarget_data_pending hp', hout]
    rfl
  · intro len hi hauth
    have hout : isOutput p .remain = true := by simp [isOutput, hauth]
    rw [step_rd32 hi hr (by omega) rfl, busRead, show target 0x14 = .remain from rfl, readTarget_of_output hp' hout]
    rfl

/-! ### What a write replaces (20_memory.md R57, R59) -/

theorem guardedWrite_idle {s : State} (hp : s.pend = none) (f : State → State) : guardedWrite f s = f s := by
  simp [guardedWrite, hp]

/-- Settles O40: the targets that the host cannot write ignore a write. -/
theorem readOnlyWritesAreIgnored : Obligations.ReadOnlyWritesAreIgnored := by
  intro s o d rest hi hr ha ho
  rw [step_wr32 hi hr (by omega) ha]
  rcases target_readOnly ha ho with h | h | h | ⟨j, h⟩ | h <;> rw [h, writeTarget]

/-- The write of a word of A, B or ACC by the host, with nothing pending. -/
theorem writeTarget_data_idle {s : State} (hp : s.pend = none) {r : DataReg} (hreg : r = .a ∨ r = .b ∨ r = .acc)
    (j : Nat) (d : Word32) : writeTarget (.data r j) d s = .next (writeRegWord r j d s) := by
  rcases hreg with rfl | rfl | rfl <;> rw [writeTarget, guardedWrite_idle hp]

/-- Settles O36: the write is that of word `j`, which replaces bytes 4j to 4j+3. -/
theorem dataWordWriteReplacesFourBytes : Obligations.DataWordWriteReplacesFourBytes := by
  intro s r j d rest hi hr hp hj hreg
  obtain ⟨ho, ha⟩ := regOffset_word_inside r hj
  refine ⟨withWord (s.regs.read r) j d, ?_, fun k hk => byteOf_withWord _ _ _ hk⟩
  rw [step_wr32 hi hr ho ha, target_reg r hj, writeTarget_data_idle (s := turn rest s) hp hreg]
  rfl

/-- Settles O38: the write is that of the word at the offset, by `Memory.lookup_writeWord`. -/
theorem blockBufferWriteStoresFourBytes : Obligations.BlockBufferWriteStoresFourBytes := by
  intro s o d rest hi hr hp hlow hhigh ha
  refine ⟨Memory.writeWord o d s.blk, ?_, fun b hb => ?_, fun a houtside => ?_⟩
  · rw [step_wr32 hi hr hhigh ha, target_blkOffset hlow, writeTarget, guardedWrite_idle (s := turn rest s) hp]
    rfl
  · rw [Memory.lookup_writeWord, if_pos (by omega), Nat.add_sub_cancel_left]
  · rw [Memory.lookup_writeWord, if_neg (by omega)]

/-! ### The host that waits on BUSY (20_memory.md R63) -/

/-- A poll of STATUS, whose word is what STATUS holds. -/
theorem step_poll {s : State} {rest : List Input} (hi : s.inputs = rd32 0x0C :: rest) (hr : s.inReset = false) :
    step s = .next { turn rest s with rdata := some (statusWord s), draws := s.draws + 1 } := by
  rw [step_rd32 hi hr (by omega) rfl, busRead, show target 0x0C = .status from rfl,
    readTarget_control _ (by decide)]
  rfl

/-- The engine's turn completes the pending command (40_command_issue.md R103). -/
theorem step_engine_pending {s : State} {p : Pending} {rest : List Input} (hi : s.inputs = .engine :: rest)
    (hp : s.pend = some p) : step s = .next (complete (effectOf p.instr p.revS (turn rest s))) := by
  have hp' : (turn rest s).pend = some p := hp
  simp only [step, hi, inputStep, engineStep, hp', exec_pending hp']

/-- A completion leaves the steps to come and the reset input alone. -/
theorem complete_effectOf_frame (i : Instr) (revS : Bool) (s : State) :
    (complete (effectOf i revS s)).inputs = s.inputs ∧ (complete (effectOf i revS s)).inReset = s.inReset := by
  obtain ⟨regs, remain, tbl, n, h⟩ := effectOf_frame i revS s
  rw [h]
  exact ⟨rfl, rfl⟩

/-- Bit 0 of STATUS is BUSY (10_state.md R29). -/
theorem statusWord_getLsbD_zero (s : State) : (statusWord s).getLsbD 0 = s.busy := by
  simp only [statusWord, BitVec.getLsbD_append]
  simp

/-- Settles O54, by induction on the polls: each leaves the command pending, and the engine's turn after them completes
it, which the last poll sees. -/
theorem waitingHostSeesTheCompletion : Obligations.WaitingHostSeesTheCompletion := by
  intro polls
  induction polls with
  | zero =>
    intro s p rest hi hr hp
    have hengine := step_engine_pending (rest := rd32 0x0C :: rest) hi hp
    obtain ⟨hinputs, hreset⟩ := complete_effectOf_frame p.instr p.revS (turn (rd32 0x0C :: rest) s)
    have hpoll := step_poll hinputs (hreset.trans hr)
    refine ⟨_, _, (run_step hengine 1).trans (run_step hpoll 0), rfl, rfl, rfl, ?_, ?_⟩
    · rw [statusWord_getLsbD_zero]
      rfl
    · rw [statusWord_getLsbD_one]
      rfl
  | succ polls ih =>
    intro s p rest hi hr hp
    have hpoll := step_poll (rest := waitLine polls ++ rest) hi hr
    rw [run_step hpoll]
    exact ih _ p rest rfl hr hp

end Sys2Proof.Machine
end

section
/-! PROOFS. The command words (30_encoding.md R80 to R88): a word as its fields, the decoder against the encoder, and
the rejection of the words that do not decode. -/

namespace Sys2Proof.Machine

open Sys2Proof

/-! ### The fields of a command word (30_encoding.md R80) -/

theorem opcField_toNat (d : Word32) : (opcField d).toNat = d.toNat % 0x100 := by
  simp [opcField, BitVec.extractLsb'_toNat]

theorem rselField_toNat (d : Word32) : (rselField d).toNat = d.toNat / 0x100 % 0x10 := by
  simp [rselField, BitVec.extractLsb'_toNat, Nat.shiftRight_eq_div_pow]

theorem rsv0Field_toNat (d : Word32) : (rsv0Field d).toNat = d.toNat / 0x1000 % 0x10 := by
  simp [rsv0Field, BitVec.extractLsb'_toNat, Nat.shiftRight_eq_div_pow]

theorem lenField_toNat (d : Word32) : (lenField d).toNat = d.toNat / 0x10000 % 0x100 := by
  simp [lenField, BitVec.extractLsb'_toNat, Nat.shiftRight_eq_div_pow]

theorem rsv1Field_toNat (d : Word32) : (rsv1Field d).toNat = d.toNat / 0x1000000 := by
  have hlt : d.toNat / 0x1000000 < 0x100 := Nat.div_lt_of_lt_mul d.isLt
  simp [rsv1Field, BitVec.extractLsb'_toNat, Nat.shiftRight_eq_div_pow, Nat.mod_eq_of_lt hlt]

/-- The word of the fields, as a sum. -/
theorem assemble_toNat (len : BitVec 8) (rsel : BitVec 4) (opc : BitVec 8) :
    (assemble len rsel opc).toNat = opc.toNat + 0x100 * rsel.toNat + 0x10000 * len.toNat := by
  have hopc := opc.isLt
  have hrsel := rsel.isLt
  have hlen := len.isLt
  simp only [assemble, BitVec.toNat_append, BitVec.toNat_ofNat]
  repeat rw [← Nat.shiftLeft_add_eq_or_of_lt (by omega)]
  simp only [Nat.shiftLeft_eq]
  omega

/-- A word is assembled from its fields if both reserved ones are 0. -/
theorem assemble_fields {d : Word32} (h0 : rsv0Field d = 0#4) (h1 : rsv1Field d = 0#8) :
    assemble (lenField d) (rselField d) (opcField d) = d := by
  have h0' := congrArg BitVec.toNat h0
  have h1' := congrArg BitVec.toNat h1
  have hd := d.isLt
  rw [rsv0Field_toNat, BitVec.toNat_zero] at h0'
  rw [rsv1Field_toNat, BitVec.toNat_zero] at h1'
  apply BitVec.eq_of_toNat_eq
  rw [assemble_toNat, lenField_toNat, rselField_toNat, opcField_toNat]
  omega

theorem opcField_assemble (len : BitVec 8) (rsel : BitVec 4) (opc : BitVec 8) :
    opcField (assemble len rsel opc) = opc := by
  apply BitVec.eq_of_toNat_eq
  rw [opcField_toNat, assemble_toNat]
  have hopc := opc.isLt
  omega

theorem rselField_assemble (len : BitVec 8) (rsel : BitVec 4) (opc : BitVec 8) :
    rselField (assemble len rsel opc) = rsel := by
  apply BitVec.eq_of_toNat_eq
  rw [rselField_toNat, assemble_toNat]
  have hopc := opc.isLt
  have hrsel := rsel.isLt
  omega

theorem lenField_assemble (len : BitVec 8) (rsel : BitVec 4) (opc : BitVec 8) :
    lenField (assemble len rsel opc) = len := by
  apply BitVec.eq_of_toNat_eq
  rw [lenField_toNat, assemble_toNat]
  have hopc := opc.isLt
  have hrsel := rsel.isLt
  have hlen := len.isLt
  omega

theorem rsv0Field_assemble (len : BitVec 8) (rsel : BitVec 4) (opc : BitVec 8) :
    rsv0Field (assemble len rsel opc) = 0#4 := by
  apply BitVec.eq_of_toNat_eq
  rw [rsv0Field_toNat, assemble_toNat, BitVec.toNat_zero]
  have hopc := opc.isLt
  have hrsel := rsel.isLt
  omega

theorem rsv1Field_assemble (len : BitVec 8) (rsel : BitVec 4) (opc : BitVec 8) :
    rsv1Field (assemble len rsel opc) = 0#8 := by
  apply BitVec.eq_of_toNat_eq
  rw [rsv1Field_toNat, assemble_toNat, BitVec.toNat_zero]
  have hopc := opc.isLt
  have hrsel := rsel.isLt
  have hlen := len.isLt
  omega

/-! ### The opcode and the reserved bits (items 1 and 2 of R87) -/

theorem operandsOf_encode (i : Instr) : operandsOf (opcField (encode i)) (encode i) = some i := by
  cases i with
  | nop => rfl
  | mul => rfl
  | build len => rw [encode, opcField_assemble, operandsOf, lenField_assemble]; rfl
  | auth len => rw [encode, opcField_assemble, operandsOf, lenField_assemble]; rfl
  | norm rsel => rw [encode, opcField_assemble, operandsOf, rselField_assemble]; rfl

/-- The fields of a command's word: without the operand's they are 0 (30_encoding.md R83). -/
theorem encode_eq_assemble (i : Instr) : ∃ len rsel opc, encode i = assemble len rsel opc ∧
    (opc.toNat ≠ 4 → rsel = 0) ∧ (opc.toNat ≠ 2 → opc.toNat ≠ 3 → len = 0) := by
  cases i with
  | nop => exact ⟨_, _, _, rfl, by decide, by decide⟩
  | mul => exact ⟨_, _, _, rfl, by decide, by decide⟩
  | build len => exact ⟨_, _, _, rfl, by simp, by simp⟩
  | auth len => exact ⟨_, _, _, rfl, by simp, by simp⟩
  | norm rsel => exact ⟨_, _, _, rfl, by simp, by simp⟩

/-- The word of a command shows the fixed bits of its row (30_encoding.md R83). -/
theorem encode_row (i : Instr) :
    ∃ row, opcodeRow (opcField (encode i)) = some row ∧ encode i &&& row.mask = row.pattern := by
  cases i with
  | nop => exact Laws.EncodingRow.nop
  | mul => exact Laws.EncodingRow.mul
  | build len => exact Laws.EncodingRow.build len
  | auth len => exact Laws.EncodingRow.auth len
  | norm rsel => exact Laws.EncodingRow.norm rsel

theorem decodeFields_encode (i : Instr) : decodeFields (encode i) = .ok i := by
  obtain ⟨row, hrow, hmask⟩ := encode_row i
  simp only [decodeFields, hrow, operandsOf_encode, hmask, if_true]

theorem decodeFields_eq_ok {d : Word32} {i : Instr} (h : decodeFields d = .ok i) :
    ∃ row, opcodeRow (opcField d) = some row ∧ operandsOf (opcField d) d = some i ∧ d &&& row.mask = row.pattern := by
  unfold decodeFields at h
  split at h
  case h_1 row j hrow hj =>
    split at h
    case isTrue hmask =>
      cases h
      exact ⟨row, hrow, hj, hmask⟩
    case isFalse => cases h
  case h_2 => cases h

/-- A field inside the mask is that of the pattern. -/
theorem extractLsb'_of_mask {d m p : Word32} (h : d &&& m = p) {start len : Nat}
    (hm : m.extractLsb' start len = BitVec.allOnes len) : d.extractLsb' start len = p.extractLsb' start len := by
  rw [← h, BitVec.extractLsb'_and, hm, BitVec.and_allOnes]

/-- A word that shows the fixed bits of its row is the word of its command: no bit outside the operand is free
(30_encoding.md R83). -/
theorem encode_of_row {d : Word32} {i : Instr} {row : OpcodeRow} (hrow : opcodeRow (opcField d) = some row)
    (hi : operandsOf (opcField d) d = some i) (hmask : d &&& row.mask = row.pattern) : encode i = d := by
  have hfixed {start len : Nat} := extractLsb'_of_mask (start := start) (len := len) hmask
  unfold opcodeRow at hrow
  split at hrow <;> cases hrow
  case h_1 hopc | h_2 hopc =>
    simp only [operandsOf, hopc] at hi
    cases hi
    exact (BitVec.and_allOnes.symm.trans hmask).symm
  case h_3 hopc | h_4 hopc =>
    simp only [operandsOf, hopc] at hi
    cases hi
    have hword : assemble (lenField d) (rselField d) (opcField d) = d := assemble_fields (hfixed rfl) (hfixed rfl)
    rwa [show opcField d = _ from hfixed rfl, show rselField d = _ from hfixed rfl] at hword
  case h_5 hopc =>
    simp only [operandsOf, hopc] at hi
    cases hi
    have hword : assemble (lenField d) (rselField d) (opcField d) = d := assemble_fields (hfixed rfl) (hfixed rfl)
    rwa [show opcField d = _ from hfixed rfl, show lenField d = _ from hfixed rfl] at hword

theorem decodeFields_eq_ok_iff (d : Word32) (i : Instr) : decodeFields d = .ok i ↔ encode i = d := by
  constructor
  · intro h
    obtain ⟨row, hrow, hi, hmask⟩ := decodeFields_eq_ok h
    exact encode_of_row hrow hi hmask
  · rintro rfl
    exact decodeFields_encode i

theorem decodeFields_of_opcode_ge {d : Word32} (hopc : 5 ≤ (opcField d).toNat) :
    decodeFields d = .error .illegalOpcode := by
  have hrow : opcodeRow (opcField d) = none := by
    unfold opcodeRow
    split
    case h_6 => rfl
    all_goals omega
  simp only [decodeFields, hrow]

/-- With a legal opcode, a word of no command has a reserved bit set (30_encoding.md R87). -/
theorem decodeFields_of_opcode_lt {d : Word32} (hopc : (opcField d).toNat < 5) (hnone : ∀ i, encode i ≠ d) :
    decodeFields d = .error .reservedNonzero := by
  have hlegal : ∃ row i, opcodeRow (opcField d) = some row ∧ operandsOf (opcField d) d = some i := by
    unfold opcodeRow operandsOf
    interval_cases (opcField d).toNat <;> exact ⟨_, _, rfl, rfl⟩
  obtain ⟨row, i, hrow, hi⟩ := hlegal
  have hmask : ¬ d &&& row.mask = row.pattern := fun h => hnone i (encode_of_row hrow hi h)
  simp only [decodeFields, hrow, hi, hmask, if_false]

/-! ### The operand (item 3 of R87) -/

theorem decode_of_decodeFields_error {d : Word32} {e : CmdError} (h : decodeFields d = .error e) :
    decode d = .error e := by
  rw [decode, h]

theorem decode_of_decodeFields_ok {d : Word32} {i : Instr} (h : decodeFields d = .ok i) :
    decode d = (operandError i).elim (.ok i) .error := by
  rw [decode, h]
  dsimp only
  cases operandError i <;> rfl

theorem decode_of_encode {d : Word32} {i : Instr} (h : encode i = d) :
    decode d = (operandError i).elim (.ok i) .error :=
  decode_of_decodeFields_ok ((decodeFields_eq_ok_iff d i).mpr h)

theorem decode_eq_ok_iff (d : Word32) (i : Instr) : decode d = .ok i ↔ encode i = d ∧ i.wellFormed = true := by
  rw [← decodeFields_eq_ok_iff, ← operandError_eq_none_iff]
  cases hd : decodeFields d with
  | error e => simp [decode_of_decodeFields_error hd]
  | ok j =>
    rw [decode_of_decodeFields_ok hd]
    cases he : operandError j with
    | none => exact ⟨fun h => by cases h; exact ⟨rfl, he⟩, fun h => h.1⟩
    | some e => exact ⟨nofun, fun ⟨h, hnone⟩ => by cases h; cases he.symm.trans hnone⟩

theorem decode_eq_error {d : Word32} {e : CmdError} (h : decode d = .error e) :
    decodeFields d = .error e ∨ ∃ i, decodeFields d = .ok i ∧ operandError i = some e := by
  cases hd : decodeFields d with
  | error e' =>
    rw [decode_of_decodeFields_error hd] at h
    exact .inl h
  | ok i =>
    rw [decode_of_decodeFields_ok hd] at h
    cases he : operandError i with
    | none => simp [he] at h
    | some e' =>
      rw [he] at h
      cases h
      exact .inr ⟨i, rfl, he⟩

theorem operandError_build (len : BitVec 8) : operandError (.build len) =
    if len.toNat = 32 ∨ len.toNat = 64 ∨ len.toNat = 96 ∨ len.toNat = 128 then none else some .badSize :=
  if_congr (by simp only [Config.tblMaxPowers]; omega) rfl rfl

theorem operandError_auth (len : BitVec 8) : operandError (.auth len) =
    if len.toNat ≤ 143 then none else some .badLen := rfl

theorem operandError_norm (rsel : BitVec 4) : operandError (.norm rsel) =
    if rsel.toNat ≤ 4 then none else some .badRsel :=
  if_congr (by omega) rfl rfl

/-! ### The obligations of 30_encoding.md on command words -/

/-- Settles O1: the word shows the fixed bits of its row and carries the operand, which is legal. -/
theorem decodeOfEncodeIsTheCommand : Obligations.DecodeOfEncodeIsTheCommand :=
  fun i hw => (decode_eq_ok_iff (encode i) i).mpr ⟨rfl, hw⟩

/-- Settles O2: with the fixed bits of its row no word but the command's remains. -/
theorem decodedWordIsTheEncoding : Obligations.DecodedWordIsTheEncoding :=
  fun d i => (decode_eq_ok_iff d i).mp

/-- Settles O3: a word without a set reserved bit is the word of its command, and no command's word has one set. -/
theorem decodingIsTotalInPriorityOrder : Obligations.DecodingIsTotalInPriorityOrder := by
  intro d
  simp only [← opcField_toNat, ← rselField_toNat, ← rsv0Field_toNat, ← lenField_toNat, ← rsv1Field_toNat,
    BitVec.ofNat_toNat, BitVec.setWidth_eq]
  refine ⟨fun hopc => ?_, fun hopc hreserved => ?_, fun h0 h1 hrsel hlen => ?_⟩
  · exact decode_of_decodeFields_error (decodeFields_of_opcode_ge hopc)
  · refine decode_of_decodeFields_error (decodeFields_of_opcode_lt hopc ?_)
    rintro i rfl
    obtain ⟨len, rsel, opc, hi, hrsel, hlen⟩ := encode_eq_assemble i
    simp only [hi, opcField_assemble, rselField_assemble, rsv0Field_assemble, lenField_assemble,
      rsv1Field_assemble] at hreserved
    rcases hreserved with hne | hne | ⟨hopc4, hne⟩ | ⟨hopc2, hopc3, hne⟩
    · exact hne rfl
    · exact hne rfl
    · exact hne (congrArg BitVec.toNat (hrsel hopc4))
    · exact hne (congrArg BitVec.toNat (hlen hopc2 hopc3))
  · have hfields := assemble_fields (BitVec.eq_of_toNat_eq h0) (BitVec.eq_of_toNat_eq h1)
    have hword {opc : BitVec 8} {len : BitVec 8} {rsel : BitVec 4} (hopc : (opcField d).toNat = opc.toNat)
        (hlen : (lenField d).toNat = len.toNat) (hrsel : (rselField d).toNat = rsel.toNat) :
        assemble len rsel opc = d := by
      rwa [BitVec.eq_of_toNat_eq hopc, BitVec.eq_of_toNat_eq hlen, BitVec.eq_of_toNat_eq hrsel] at hfields
    refine ⟨fun hopc => ?_, fun hopc => ?_, fun hopc => ?_, fun hopc => ?_, fun hopc => ?_⟩
    · exact decode_of_encode (i := .nop) (hword hopc (hlen (by omega) (by omega)) (hrsel (by omega)))
    · exact decode_of_encode (i := .mul) (hword hopc (hlen (by omega) (by omega)) (hrsel (by omega)))
    · rw [decode_of_encode (i := .build (lenField d)) (hword hopc rfl (hrsel (by omega))), operandError_build]
      split <;> rfl
    · rw [decode_of_encode (i := .auth (lenField d)) (hword hopc rfl (hrsel (by omega))), operandError_auth]
      split <;> rfl
    · rw [decode_of_encode (i := .norm (rselField d)) (hword hopc (hlen (by omega) (by omega)) rfl), operandError_norm]
      split <;> rfl

/-- Settles O4: each is the word of its command, whose operand is legal. -/
theorem knownCommandWordsDecode : Obligations.KnownCommandWordsDecode :=
  ⟨decodeOfEncodeIsTheCommand .nop rfl, decodeOfEncodeIsTheCommand .mul rfl,
    decodeOfEncodeIsTheCommand (.build 128) rfl, decodeOfEncodeIsTheCommand (.auth 32) rfl,
    decodeOfEncodeIsTheCommand (.auth 85) rfl, decodeOfEncodeIsTheCommand (.norm 3) rfl,
    decodeOfEncodeIsTheCommand (.norm 4) rfl⟩

/-! ### The rejection of a command (40_command_issue.md R101, R104; 60_exceptions.md R220) -/

theorem raiseError_eq_recorded (e : CmdError) (s : State) : raiseError e s = recorded (errorCode e) s :=
  raiseError_eq e s

theorem exec_illegalOperand {s : State} (hp : s.pend = none) {i : Instr} {e : CmdError} (he : operandError i = some e) :
    exec i s = .next (recorded (errorCode e) s) := by
  rw [exec_idle hp, issue, he]
  exact congrArg _ (raiseError_eq_recorded e s)

/-- Settles O8: the operand is illegal exactly outside the ranges of R84. -/
theorem illegalOperandIsRejected : Obligations.IllegalOperandIsRejected := by
  intro s hp
  refine ⟨fun len hlen => ?_, fun len hlen => ?_, fun rsel hrsel => ?_⟩
  · refine exec_illegalOperand hp ((operandError_build len).trans (if_neg ?_))
    simpa using hlen
  · exact exec_illegalOperand hp ((operandError_auth len).trans (if_neg (by omega)))
  · exact exec_illegalOperand hp ((operandError_norm rsel).trans (if_neg (by omega)))

/-- An idle engine rejects a word that does not decode with its error. -/
theorem presentCommand_undecodable {s : State} (hp : s.pend = none) {d : Word32} {e : CmdError}
    (h : decode d = .error e) : presentCommand d s = .next (recorded (errorCode e) s) := by
  rw [presentCommand, busy_eq_isSome, hp]
  rcases decode_eq_error h with hd | ⟨i, hd, he⟩
  · simp only [hd, raiseError_eq_recorded]
    rfl
  · simp only [hd, exec_illegalOperand hp he]
    rfl

/-- Settles O10: the step is the CMD write, and `errorCode` gives each error its code. -/
theorem undecodableWordIsRejected : Obligations.UndecodableWordIsRejected := by
  intro s d rest hi hr hp
  have hreject {e : CmdError} (h : decode d = .error e) : step s = .next (recorded (errorCode e) (turn rest s)) := by
    rw [step_wr32 hi hr (by omega) rfl]
    exact presentCommand_undecodable (s := turn rest s) hp h
  exact ⟨hreject, hreject, hreject, hreject, hreject⟩

end Sys2Proof.Machine
end

section
/-! PROOFS. Strings on the bus (30_encoding.md R89): what the four writes of wr128 leave, and what the four reads of
rd128 return. -/

namespace Sys2Proof.Machine

open Sys2Proof

/-! ### The words of a register that the host program names -/

theorem hostOffset_word_inside (r : HostReg) {j : Nat} (hj : j < 4) :
    hostOffset r + 4 * j < 0x100 ∧ (hostOffset r + 4 * j) % 4 = 0 := by
  cases r with
  | data reg => exact regOffset_word_inside reg hj
  | blk i =>
    have hi := i.isLt
    simp only [hostOffset, blkOffset]
    omega

theorem target_blk_word (i : Fin 8) (j : Nat) : target (hostOffset (.blk i) + 4 * j) = .blk (blkOffset i 0 + 4 * j) :=
  target_blkOffset (by simp only [hostOffset, blkOffset]; omega)

/-! ### The four writes (20_memory.md R55, R57) -/

/-- The write `j` of `wr128` (30_encoding.md R89). -/
def hostWrite (r : HostReg) (v : Block) (j : Nat) : Input := wr32 (hostOffset r + 4 * j) (wordOf v j)

theorem wr128_eq_map (r : HostReg) (v : Block) : wr128 r v = (List.range 4).map (hostWrite r v) := rfl

/-- The write of word `j` of a register, with nothing pending (`step_write_word`). -/
def writeHostWord : HostReg → Nat → Word32 → State → State
  | .data .res, _, _ => id
  | .data .hkey, j, d => fun s => clearPowers (writeRegWord .hkey j d s)
  | .data r, j, d => writeRegWord r j d
  | .blk i, j, d => writeBlkWord (blkOffset i 0 + 4 * j) d

/-- The first `n` writes of `wr128` (`run_wr128`). -/
def writeHostWords (r : HostReg) (v : Block) (n : Nat) (s : State) : State :=
  (List.range n).foldl (fun t j => writeHostWord r j (wordOf v j) t) s

theorem writeHostWords_succ (r : HostReg) (v : Block) (n : Nat) (s : State) :
    writeHostWords r v (n + 1) s = writeHostWord r n (wordOf v n) (writeHostWords r v n s) := by
  rw [writeHostWords, List.range_succ, List.foldl_append]
  rfl

theorem writeHostWord_frame (r : HostReg) (j : Nat) (d : Word32) (s : State) :
    (writeHostWord r j d s).inputs = s.inputs ∧ (writeHostWord r j d s).pend = s.pend ∧
      (writeHostWord r j d s).inReset = s.inReset := by
  cases r with
  | data r => cases r <;> exact ⟨rfl, rfl, rfl⟩
  | blk i => exact ⟨rfl, rfl, rfl⟩

theorem turn_writeHostWord (rest : List Input) (r : HostReg) (j : Nat) (d : Word32) (s : State) :
    turn rest (writeHostWord r j d s) = writeHostWord r j d (turn rest s) := by
  cases r with
  | data r => cases r <;> rfl
  | blk i => rfl

theorem step_write_word {s : State} {r : HostReg} {j : Nat} {d : Word32} {rest : List Input}
    (hi : s.inputs = wr32 (hostOffset r + 4 * j) d :: rest) (hr : s.inReset = false) (hp : s.pend = none) (hj : j < 4) :
    step s = .next (writeHostWord r j d (turn rest s)) := by
  obtain ⟨ho, ha⟩ := hostOffset_word_inside r hj
  have hp' : (turn rest s).pend = none := hp
  rw [step_wr32 hi hr ho ha]
  cases r with
  | data r =>
    rw [hostOffset, target_reg r hj]
    cases r <;> simp only [writeTarget, guardedWrite_idle hp'] <;> rfl
  | blk i => rw [target_blk_word, writeTarget, guardedWrite_idle hp']; rfl

/-- No step looks at the data of the read before it. -/
theorem step_turn_inputs (s : State) : step (turn s.inputs s) = step s := by
  unfold step
  rw [turn_inputs]
  cases s.inputs <;> rfl

theorem run_writes (r : HostReg) (v : Block) (rest : List Input) {js : List Nat} (hjs : ∀ j ∈ js, j < 4) {s : State}
    (hr : s.inReset = false) (hp : s.pend = none) :
    Host.Core.run core js.length (turn (js.map (hostWrite r v) ++ rest) s) =
      .next (js.foldl (fun t j => writeHostWord r j (wordOf v j) t) (turn rest s)) := by
  induction js generalizing s with
  | nil => rfl
  | cons j js ih =>
    obtain ⟨hj, hjs⟩ := List.forall_mem_cons.mp hjs
    obtain ⟨-, hpend, hreset⟩ := writeHostWord_frame r j (wordOf v j) s
    have hstep : step (turn ((j :: js).map (hostWrite r v) ++ rest) s) =
        .next (turn (js.map (hostWrite r v) ++ rest) (writeHostWord r j (wordOf v j) s)) := by
      rw [turn_writeHostWord]
      exact step_write_word rfl hr hp hj
    refine (run_step hstep js.length).trans ((ih hjs (hreset.trans hr) (hpend.trans hp)).trans ?_)
    rw [turn_writeHostWord]
    rfl

theorem run_wr128 {s : State} {r : HostReg} {v : Block} {rest : List Input} (hi : s.inputs = wr128 r v ++ rest)
    (hr : s.inReset = false) (hp : s.pend = none) :
    Host.Core.run core 4 s = .next (writeHostWords r v 4 (turn rest s)) := by
  have hrun := run_writes r v rest (js := List.range 4) (by decide) hr hp
  have hturn : Host.Core.run core 4 (turn s.inputs s) = Host.Core.run core 4 s := by
    simp only [Host.Core.run, show core.step (turn s.inputs s) = core.step s from step_turn_inputs s]
  rw [hi, wr128_eq_map] at hturn
  exact hturn.symm.trans hrun

/-! ### A data register after the writes -/

/-- The string whose first `n` words are those of `v` and whose others are those of `old`. -/
def firstWords (v old : Block) (n : Nat) : Block := ofBytes fun k => if k < 4 * n then byteOf v k else byteOf old k

theorem byteOf_firstWords (v old : Block) (n : Nat) {k : Nat} (hk : k < 16) :
    byteOf (firstWords v old n) k = if k < 4 * n then byteOf v k else byteOf old k := byteOf_ofBytes _ hk

theorem firstWords_zero (v old : Block) : firstWords v old 0 = old := ofBytes_byteOf old

theorem firstWords_four (v old : Block) : firstWords v old 4 = v :=
  block_ext fun _ hk => (byteOf_firstWords v old 4 hk).trans (if_pos hk)

theorem withWord_firstWords (v old : Block) (n : Nat) :
    withWord (firstWords v old n) n (wordOf v n) = firstWords v old (n + 1) := by
  refine block_ext fun k hk => ?_
  rw [byteOf_withWord _ _ _ hk, laneOf_wordOf _ _ (by omega), byteOf_firstWords _ _ _ hk,
    byteOf_firstWords _ _ _ hk]
  by_cases hword : k / 4 = n
  · rw [if_pos hword, if_pos (by omega), show 4 * n + k % 4 = k by omega]
  · rw [if_neg hword]
    exact if_congr (by omega) rfl rfl

theorem DataRegs.write_write (x : DataRegs) (r : DataReg) (v w : Block) : (x.write r v).write r w = x.write r w := by
  cases r <;> rfl

theorem writeHostWord_regs {r : DataReg} (hres : r ≠ .res) (j : Nat) (d : Word32) (s : State) :
    (writeHostWord (.data r) j d s).regs = s.regs.write r (withWord (s.regs.read r) j d) := by
  cases r with
  | res => exact absurd rfl hres
  | _ => rfl

theorem writeHostWords_regs {r : DataReg} (hres : r ≠ .res) (v : Block) (n : Nat) (s : State) :
    (writeHostWords (.data r) v n s).regs = s.regs.write r (firstWords v (s.regs.read r) n) := by
  induction n with
  | zero => rw [firstWords_zero, DataRegs.write_read]; rfl
  | succ n ih =>
    rw [writeHostWords_succ, writeHostWord_regs hres, ih, DataRegs.write_write, DataRegs.read_write, if_pos rfl,
      withWord_firstWords]

/-- RES is not written by the host (10_state.md R24). -/
theorem writeHostWords_res (v : Block) (n : Nat) (s : State) : writeHostWords (.data .res) v n s = s := by
  induction n with
  | zero => rfl
  | succ n ih => rw [writeHostWords_succ, ih]; rfl

theorem writeHostWords_frame (r : HostReg) (v : Block) (n : Nat) (s : State) :
    (writeHostWords r v n s).inputs = s.inputs ∧ (writeHostWords r v n s).pend = s.pend := by
  induction n with
  | zero => exact ⟨rfl, rfl⟩
  | succ n ih =>
    obtain ⟨hinputs, hpend, -⟩ := writeHostWord_frame r n (wordOf v n) (writeHostWords r v n s)
    rw [writeHostWords_succ, hinputs, hpend]
    exact ih

/-- Settles O42: after four writes the first four words are those of the string, which are all; RES ignores each. -/
theorem fourWritesLoadARegister : Obligations.FourWritesLoadARegister := by
  intro s r v rest hi hr hp
  obtain ⟨hinputs, hpend⟩ := writeHostWords_frame (.data r) v 4 (turn rest s)
  refine ⟨_, run_wr128 hi hr hp, hinputs, hpend.trans hp, fun hres => ?_, ?_⟩
  · rw [writeHostWords_regs hres, firstWords_four]
    rfl
  · rintro rfl
    rw [writeHostWords_res]
    rfl

/-! ### The block buffer after the writes -/

theorem writeHostWords_blk (i : Fin 8) (v : Block) (n : Nat) (s : State) :
    ∃ blk, writeHostWords (.blk i) v n s = { s with blk := blk } ∧ ∀ x, Memory.lookup x blk =
      if blkOffset i 0 ≤ x ∧ x < blkOffset i 0 + 4 * n then some (byteOf v (x - blkOffset i 0))
      else Memory.lookup x s.blk := by
  induction n with
  | zero => exact ⟨s.blk, rfl, fun x => (if_neg (by omega)).symm⟩
  | succ n ih =>
    obtain ⟨blk, hstate, hlookup⟩ := ih
    refine ⟨Memory.writeWord (blkOffset i 0 + 4 * n) (wordOf v n) blk, ?_, fun x => ?_⟩
    · rw [writeHostWords_succ, hstate]
      rfl
    · rw [Memory.lookup_writeWord, hlookup]
      by_cases hword : blkOffset i 0 + 4 * n ≤ x ∧ x < blkOffset i 0 + 4 * n + 4
      · rw [if_pos hword, if_pos (by omega), laneOf_wordOf _ _ (by omega)]
        congr 2
        omega
      · rw [if_neg hword]
        exact if_congr (by omega) rfl rfl

/-- Settles O56: the four writes store the bytes of the four words, and nothing else. -/
theorem fourWritesLoadABlock : Obligations.FourWritesLoadABlock := by
  intro s i v rest hi hr hp
  obtain ⟨blk, hstate, hlookup⟩ := writeHostWords_blk i v 4 (turn rest s)
  refine ⟨blk, (run_wr128 hi hr hp).trans (congrArg _ hstate), fun k hk => ?_, fun a ha => ?_⟩
  · have hoff : blkOffset i k = blkOffset i 0 + k := by rw [blkOffset, blkOffset]; omega
    rw [hlookup, hoff, if_pos (by omega), Nat.add_sub_cancel_left]
  · rw [hlookup, if_neg (by omega)]
    rfl

/-! ### The four reads (20_memory.md R58) -/

/-- The read `j` of `rd128` (30_encoding.md R89). -/
def hostRead (r : HostReg) (j : Nat) : Input := rd32 (hostOffset r + 4 * j)

theorem rd128_eq_map (r : HostReg) : rd128 r = (List.range' 0 4).map (hostRead r) := rfl

/-- Word `j` of a register as read `j` of an `rd128` that begins in state `s` returns it, with nothing pending
(`busRead_afterReads`). -/
def hostWord (s : State) (r : HostReg) (j : Nat) : Word32 :=
  match r with
  | .data reg => wordOf (s.regs.read reg) j
  | .blk i => wordOfLanes fun b => blkByte { s with draws := s.draws + j } (blkOffset i 0 + 4 * j + b)

/-- The state after `j` reads from state `s`: only the model's own fields are others. -/
def afterReads (s : State) (j : Nat) (inputs : List Input) (rdata : Option Word32) : State :=
  { s with inputs := inputs, rdata := rdata, draws := s.draws + j }

theorem readTarget_afterReads {s : State} (hp : s.pend = none) (r : HostReg) {j : Nat} (hj : j < 4)
    (inputs rest : List Input) (rdata : Option Word32) :
    readTarget (target (hostOffset r + 4 * j)) (turn rest (afterReads s j inputs rdata)) = hostWord s r j := by
  cases r with
  | data reg =>
    rw [hostOffset, target_reg reg hj, readTarget_of_not_output fun p h => by cases hp.symm.trans h]
    rfl
  | blk i =>
    rw [target_blk_word, readTarget_blk]
    rfl

theorem busRead_afterReads {s : State} (hp : s.pend = none) (r : HostReg) {j : Nat} (hj : j < 4)
    (inputs rest : List Input) (rdata : Option Word32) :
    busRead (hostOffset r + 4 * j) (turn rest (afterReads s j inputs rdata)) =
      afterReads s (j + 1) rest (some (hostWord s r j)) := by
  rw [busRead, readTarget_afterReads hp r hj]
  rfl

/-- `ofWords` takes four words. -/
theorem ofWords_congr {w w' : Nat → Word32} (h : ∀ j, j < 4 → w j = w' j) : ofWords w = ofWords w' :=
  block_ext fun k hk => by rw [byteOf_ofWords _ hk, byteOf_ofWords _ hk, h _ (by omega)]

/-- The reads of words `j` to `j + n - 1`, by induction on `n`: each leaves the state for the next. -/
theorem readWords_afterReads {s : State} (hr : s.inReset = false) (hp : s.pend = none) (r : HostReg) (rest : List Input)
    {n j : Nat} (hj : j + n ≤ 4) (rdata : Option Word32) :
    ∃ last, readWords n (afterReads s j ((List.range' j n).map (hostRead r) ++ rest) rdata) =
      some ((List.range' j n).map (hostWord s r), afterReads s (j + n) rest last) := by
  induction n generalizing j rdata with
  | zero => exact ⟨rdata, rfl⟩
  | succ n ih =>
    obtain ⟨ho, ha⟩ := hostOffset_word_inside r (show j < 4 by omega)
    obtain ⟨last, hlast⟩ := ih (j := j + 1) (by omega) (some (hostWord s r j))
    have hread := readWords_rd32 (s := afterReads s j ((List.range' j (n + 1)).map (hostRead r) ++ rest) rdata)
      (rest := (List.range' (j + 1) n).map (hostRead r) ++ rest) rfl hr ho ha n
    rw [busRead_afterReads hp r (by omega), readTarget_afterReads hp r (by omega), hlast] at hread
    refine ⟨last, hread.trans ?_⟩
    rw [show j + 1 + n = j + (n + 1) by omega]
    rfl

theorem readString_rd128 {s : State} {r : HostReg} {rest : List Input} (hi : s.inputs = rd128 r ++ rest)
    (hr : s.inReset = false) (hp : s.pend = none) :
    ∃ last, readString s = some (ofWords (hostWord s r), afterReads s 4 rest last) := by
  obtain ⟨last, hwords⟩ := readWords_afterReads hr hp r rest (n := 4) (j := 0) (by omega) s.rdata
  have hs : afterReads s 0 ((List.range' 0 4).map (hostRead r) ++ rest) s.rdata = s := by
    rw [← rd128_eq_map, ← hi]
    rfl
  have hstring : ofWords (fun j => ((List.range' 0 4).map (hostWord s r)).getD j 0) = ofWords (hostWord s r) :=
    ofWords_congr fun j hj => by interval_cases j <;> rfl
  refine ⟨last, ?_⟩
  rw [hs] at hwords
  simp only [readString, hwords, hstring, Nat.zero_add]

/-- Settles O57: the words read are those of the register, which make its string, or the lanes of the buffer's bytes. -/
theorem fourReadsReturnTheString : Obligations.FourReadsReturnTheString := by
  intro s r rest hi hr hp
  obtain ⟨last, hread⟩ := readString_rd128 hi hr hp
  refine ⟨_, _, _, hread, ?_, ?_⟩
  · rintro reg rfl
    exact ofWords_wordOf _
  · rintro i rfl k hk
    have hoff : blkOffset i 0 + 4 * (k / 4) + k % 4 = blkOffset i k := by rw [blkOffset, blkOffset]; omega
    rw [byteOf_ofWords _ hk, hostWord, laneOf_wordOfLanes _ (by omega), blkByte_eq_getD, hoff]

end Sys2Proof.Machine
end

section
/-! PROOFS. The issue and the completion of commands (40_command_issue.md R100 to R106): when the step is the exec of a
command, what an acceptance writes, and what ends a pending command. -/

namespace Sys2Proof.Machine

open Sys2Proof

/-! ### The CMD write (40_command_issue.md R101) -/

theorem presentCommand_idle {s : State} (hp : s.pend = none) {d : Word32} {i : Instr} (h : decodeFields d = .ok i) :
    presentCommand d s = exec i s := by
  simp [presentCommand, hp, h]

theorem presentCommand_pending {s : State} {p : Pending} (hp : s.pend = some p) (d : Word32) :
    presentCommand d s = .next (raiseError .cmdBusy s) := by
  simp [presentCommand, hp]

/-- The table's bits of a command word are the word: all 32 are taken. -/
theorem tableWord_toNat (d : Word32) : tableWord 32 d.toNat = d := by
  rw [tableWord, Nat.mod_eq_of_lt d.isLt, BitVec.ofNat_toNat, BitVec.setWidth_eq]

/-- The step on a CMD write to an idle block. -/
theorem step_cmd_idle {s : State} {d : Word32} {i : Instr} {rest : List Input} (hi : s.inputs = wr32 0x10 d :: rest)
    (hr : s.inReset = false) (hp : s.pend = none) (hd : decode d = .ok i) : step s = exec i (turn rest s) := by
  have hword : encode i = d := ((decode_eq_ok_iff d i).mp hd).1
  rw [step_wr32 hi hr (by omega) rfl]
  exact presentCommand_idle (s := turn rest s) hp ((decodeFields_eq_ok_iff d i).mpr hword)

/-- Settles O5: the step is the CMD write, and withFetchWord puts the write of the command's own word first. -/
theorem stepIssuesTheDecodedCommand : Obligations.StepIssuesTheDecodedCommand := by
  refine ⟨fun s d i rest hi hr hp hd => step_cmd_idle hi hr hp hd, fun s i hw => ?_⟩
  have hi : (s.withFetchWord 32 (encode i).toNat).inputs = wr32 0x10 (encode i) :: s.inputs := by
    rw [State.withFetchWord, tableWord_toNat]
  exact step_cmd_idle hi rfl rfl (decodeOfEncodeIsTheCommand i hw)

/-- Settles O11: CMD_BUSY is recorded before the word is decoded. -/
theorem cmdWriteWhileBusyIsRejected : Obligations.CmdWriteWhileBusyIsRejected := by
  intro s d rest p hi hr hp
  rw [step_wr32 hi hr (by omega) rfl]
  exact (presentCommand_pending (s := turn rest s) hp d).trans (congrArg _ (raiseError_eq_recorded .cmdBusy _))

/-- A bus transaction that is performed finds reset released (70_reset_and_hazards.md R260). -/
theorem not_inReset_of_hostStep {t : BusTransaction} {s s' : State} (h : hostStep t s = .next s') :
    s.inReset = false := by
  rcases hostStep_cases t s with ⟨-, h'⟩ | ⟨hr, -⟩ | ⟨hr, -⟩ | ⟨hr, -⟩
  · cases h'.symm.trans h
  all_goals exact hr

/-- Settles O12: a CMD write records an error or accepts a command, and an acceptance by an idle engine changes pend. -/
theorem rejectedCommandChangesOnlyErrorFields : Obligations.RejectedCommandChangesOnlyErrorFields := by
  intro s s' d rest hi hstep hpend
  have hr : (turn rest s).inReset = false := not_inReset_of_hostStep ((step_bus hi).symm.trans hstep)
  have hwrite : presentCommand d (turn rest s) = .next s' := (step_wr32 hi hr (by omega) rfl).symm.trans hstep
  rcases presentCommand_cases d (turn rest s) with ⟨e, he⟩ | ⟨hidle, i, haccept⟩
  · cases he.symm.trans hwrite
    exact ⟨errorCode e, raiseError_eq_recorded e _⟩
  · cases haccept.symm.trans hwrite
    cases hpend.trans hidle

/-! ### Acceptance (40_command_issue.md R102) -/

theorem needsTable_iff (i : Instr) : needsTable i = true ↔ ∃ len, i = .auth len ∧ 16 ≤ len.toNat := by
  have hblocks (len : BitVec 8) : 0 < wholeBlocks len ↔ 16 ≤ len.toNat := by rw [wholeBlocks]; omega
  cases i <;> simp [needsTable, hblocks]

/-- Settles O7: the command is accepted, and those that write TBL_POWERS are as `invalidatesTable_iff` says. -/
theorem acceptanceMakesTheCommandPending : Obligations.AcceptanceMakesTheCommandPending := by
  intro i s hp hw htable
  have hneeds : needsTable i = true → s.status.tblPowers ≠ 0 := fun h => by
    obtain ⟨len, rfl, hlen⟩ := (needsTable_iff i).mp h
    exact htable len rfl hlen
  refine ⟨accept i s, by rw [exec_idle hp, issue_accepts hw hneeds], rfl, ?_⟩
  cases i with
  | norm rsel =>
    have hinvalid : invalidatesTable (.norm rsel) (s.ctrl.getLsbD 0) = true ↔
        rsel = 4 ∧ s.ctrl.getLsbD 0 = true := by
      simp [invalidatesTable_iff]
    simp only [accept, State.rev, hinvalid]
  | _ => rfl

/-! ### Completion (40_command_issue.md R103) -/

/-- Settles O6: with or without an input left, the step is the engine's. -/
theorem stepCompletesThePendingCommand : Obligations.StepCompletesThePendingCommand := by
  intro s p rest hp hinputs
  have hengine : step s = engineStep (turn rest s) := by
    rcases hinputs with hi | ⟨hi, rfl⟩
    · simp only [step, hi, inputStep]
    · simp only [step, hi]
  simp only [hengine, engineStep, turn_pend, hp]

/-- Settles O18: Effect(NOP) leaves the state as it is. -/
theorem nopCompletes : Obligations.NopCompletes :=
  fun _ _ hp => ⟨_, _, exec_pending hp .nop⟩

/-! ### What ends a pending command (40_command_issue.md R106) -/

theorem guardedWrite_pending {s : State} {p : Pending} (hp : s.pend = some p) (f : State → State) :
    guardedWrite f s = raiseError .writeBusy s := by
  simp [guardedWrite, hp]

/-- No bus write touches a pending command: writes to CMD and to data are dropped with an error, and the others do not
write pend. -/
theorem writeTarget_pend {t : Target} {d : Word32} {s s' : State} {p : Pending} (hp : s.pend = some p)
    (h : writeTarget t d s = .next s') : s'.pend = some p := by
  have hdropped (e : CmdError) : (raiseError e s).pend = some p := (raiseError_pend e s).trans hp
  cases t with
  | cmd =>
    cases (presentCommand_pending hp d).symm.trans h
    exact hdropped _
  | blk a =>
    cases h
    rw [guardedWrite_pending hp]
    exact hdropped _
  | data r j =>
    cases r with
    | res =>
      cases h
      exact hp
    | _ =>
      cases h
      rw [guardedWrite_pending hp]
      exact hdropped _
  | _ =>
    cases h
    exact hp

/-- A command stays pending through every host transaction. -/
theorem hostStep_pend {t : BusTransaction} {s s' : State} {p : Pending} (hp : s.pend = some p)
    (h : hostStep t s = .next s') : s'.pend = some p := by
  rcases hostStep_next_cases h with ⟨o, rfl⟩ | ⟨o, d, -, -, hwrite⟩
  · exact hp
  · exact writeTarget_pend hp hwrite

/-- The engine's step, whether its turn came or no input is left, completes the pending command and sets DONE. -/
theorem step_engine_ends {s s' : State} {p : Pending} {rest : List Input} (hp : s.pend = some p)
    (hinputs : s.inputs = .engine :: rest ∨ (s.inputs = [] ∧ rest = [])) (h : step s = .next s') :
    s'.pend = none ∧ s'.status.done = true := by
  rw [stepCompletesThePendingCommand s p rest hp hinputs, exec_pending (s := turn rest s) hp] at h
  cases h
  exact ⟨rfl, rfl⟩

/-- Settles O53, by the input that is next: only the engine's turn and the assertion of reset touch pend. -/
theorem onlyCompletionOrResetEndsACommand : Obligations.OnlyCompletionOrResetEndsACommand := by
  intro s s' p hp hstep
  cases hi : s.inputs with
  | nil =>
    obtain ⟨hnone, hdone⟩ := step_engine_ends hp (.inr ⟨hi, rfl⟩) hstep
    exact .inr (.inl ⟨hnone, hdone, .inl rfl⟩)
  | cons i rest =>
    cases i with
    | bus t => exact .inl (hostStep_pend (s := turn rest s) hp ((step_bus hi).symm.trans hstep))
    | engine =>
      obtain ⟨hnone, hdone⟩ := step_engine_ends hp (.inl hi) hstep
      exact .inr (.inl ⟨hnone, hdone, .inr rfl⟩)
    | assertReset =>
      simp only [step, hi, inputStep] at hstep
      cases hstep
      exact .inr (.inr ⟨rfl, rfl, rfl⟩)
    | releaseReset =>
      simp only [step, hi, inputStep] at hstep
      cases hstep
      exact .inl hp

end Sys2Proof.Machine
end

section
/-! PROOFS. The field primitive (41_field_primitive.md R120 to R127): the coefficients of the carry-less product, the
laws of the field product, and MUL against the bit-serial multiplication. -/

namespace Sys2Proof.Machine

open Sys2Proof Polynomial

/-! ### The coefficients of the carry-less product (41_field_primitive.md R121) -/

/-- Two bits are equal if they are as integers modulo 2. -/
theorem eq_of_zmodTwo_eq {p q : Bool} (h : (if p then (1 : ZMod 2) else 0) = if q then 1 else 0) : p = q := by
  cases p <;> cases q <;> simp_all

/-- An XOR of bits over a range is their sum in the integers modulo 2. -/
theorem foldl_xor_range'_eq_sum (f : Nat → Bool) (lo n : Nat) :
    (if (List.range' lo n).foldl (fun x i => x ^^ f i) false then (1 : ZMod 2) else 0) =
      ∑ i ∈ Finset.Ico lo (lo + n), if f i then 1 else 0 := by
  induction n with
  | zero => simp
  | succ n ih =>
    rw [List.range'_concat, List.foldl_append, ← Nat.add_assoc, Finset.sum_Ico_succ_top (by omega), ← ih]
    cases (List.range' lo n).foldl (fun x i => x ^^ f i) false <;> cases hf : f (lo + n) <;>
      simp [hf, CharTwo.add_self_eq_zero]

theorem clmul64_getLsbD_eq_sum (a b : Half) (k : Nat) :
    (if (clmul64 a b).getLsbD k then (1 : ZMod 2) else 0) =
      ∑ i ∈ Finset.range (k + 1), if a.getLsbD i && b.getLsbD (k - i) then 1 else 0 := by
  rw [← coeff_toPolynomial, toPolynomial_clmul64, coeff_mul, Finset.Nat.sum_antidiagonal_eq_sum_range_succ_mk]
  refine Finset.sum_congr rfl fun i _ => ?_
  simp only [coeff_toPolynomial, Bool.and_eq_true, ite_and, ite_mul, one_mul, zero_mul]

/-- The XOR of R121: outside its range a term has a coefficient past a half's end. Past `k = 126` the range is empty. -/
theorem clmul64_getLsbD (a b : Half) (k : Nat) :
    (clmul64 a b).getLsbD k = (List.range' (k - 63) (min k 63 + 1 - (k - 63))).foldl
      (fun x i => x ^^ (a.getLsbD i && b.getLsbD (k - i))) false := by
  apply eq_of_zmodTwo_eq
  rw [clmul64_getLsbD_eq_sum, foldl_xor_range'_eq_sum]
  refine (Finset.sum_subset (fun i hi => ?_) fun i hi hout => ?_).symm
  · simp only [Finset.mem_Ico, Finset.mem_range] at hi ⊢
    omega
  · simp only [Finset.mem_Ico, Finset.mem_range] at hi hout
    by_cases hhigh : 64 ≤ i
    · simp [BitVec.getLsbD_of_ge a i hhigh]
    · simp [BitVec.getLsbD_of_ge b (k - i) (by omega)]

/-- Settles O25: one formula gives every coefficient, and the range of coefficient 127 is empty. -/
theorem carrylessProductCoefficients : Obligations.CarrylessProductCoefficients :=
  fun a b => ⟨fun k _ => clmul64_getLsbD a b k, clmul64_getLsbD a b 127⟩

/-! ### The laws of the field product (41_field_primitive.md R120) -/

theorem toPolynomial_injective {w : Nat} : Function.Injective (toPolynomial (w := w)) := by
  intro a b h
  refine BitVec.eq_of_getLsbD_eq fun k _ => eq_of_zmodTwo_eq ?_
  rw [← coeff_toPolynomial, ← coeff_toPolynomial, h]

/-- A field element is its own remainder modulo g. -/
theorem toPolynomial_modByMonic (p : Poly) : toPolynomial p %ₘ fieldModulus = toPolynomial p := by
  rw [modByMonic_eq_self_iff monic_fieldModulus, degree_fieldModulus]
  exact degree_toPolynomial_lt p

/-- A factor of a remainder modulo g can be taken modulo g first. -/
theorem modByMonic_mul_modByMonic (p q : (ZMod 2)[X]) :
    (p %ₘ fieldModulus * q) %ₘ fieldModulus = (p * q) %ₘ fieldModulus := by
  have hidem : p %ₘ fieldModulus %ₘ fieldModulus = p %ₘ fieldModulus :=
    (modByMonic_eq_self_iff monic_fieldModulus).mpr (degree_modByMonic_lt p monic_fieldModulus)
  rw [mul_modByMonic, hidem, ← mul_modByMonic]

theorem fieldMul_comm (a b : Poly) : fieldMul a b = fieldMul b a :=
  toPolynomial_injective <| by rw [toPolynomial_fieldMul, toPolynomial_fieldMul, mul_comm]

theorem fieldMul_assoc (a b c : Poly) : fieldMul (fieldMul a b) c = fieldMul a (fieldMul b c) := by
  apply toPolynomial_injective
  calc toPolynomial (fieldMul (fieldMul a b) c)
      = (toPolynomial a * toPolynomial b * toPolynomial c) %ₘ fieldModulus := by
        rw [toPolynomial_fieldMul, toPolynomial_fieldMul, modByMonic_mul_modByMonic]
    _ = (toPolynomial b * toPolynomial c * toPolynomial a) %ₘ fieldModulus := by
        rw [mul_assoc, mul_comm]
    _ = toPolynomial (fieldMul a (fieldMul b c)) := by
        rw [fieldMul_comm a, toPolynomial_fieldMul, toPolynomial_fieldMul, modByMonic_mul_modByMonic]

theorem fieldMul_xor (a b c : Poly) : fieldMul a (b ^^^ c) = fieldMul a b ^^^ fieldMul a c :=
  toPolynomial_injective <| by
    simp only [toPolynomial_fieldMul, toPolynomial_xor, mul_add, add_modByMonic]

theorem one_fieldMul (a : Poly) : fieldMul 1#128 a = a :=
  toPolynomial_injective <| by
    rw [toPolynomial_fieldMul, toPolynomial_one (by omega), one_mul, toPolynomial_modByMonic]

theorem fieldMul_zero (a : Poly) : fieldMul a 0#128 = 0#128 :=
  toPolynomial_injective <| by rw [toPolynomial_fieldMul, toPolynomial_zero, mul_zero, zero_modByMonic]

/-- Settles O27: each law is that of polynomials, and the product is theirs modulo g. -/
theorem fieldProductLaws : Obligations.FieldProductLaws :=
  ⟨fieldMul_comm, fieldMul_assoc, fieldMul_xor, fun a => fe_one ▸ one_fieldMul a, fieldMul_zero⟩

/-! ### The bit-serial multiplication (41_field_primitive.md R125) -/

theorem getLsbD_fe_eq_getMsbD (r : Block) (i : Nat) : (fe r).getLsbD i = r.getMsbD i := BitVec.getLsbD_reverse

theorem fe_xor (r s : Block) : fe (r ^^^ s) = fe r ^^^ fe s :=
  BitVec.eq_of_getLsbD_eq fun i _ => by simp only [BitVec.getLsbD_xor, getLsbD_fe_eq_getMsbD, BitVec.getMsbD_xor]

/-- A string shifted towards byte 15 is the field element shifted towards the high coefficients. -/
theorem fe_ushiftRight_one (r : Block) : fe (r >>> 1) = fe r <<< 1 :=
  BitVec.eq_of_getLsbD_eq fun i hi => by
    rw [BitVec.getLsbD_shiftLeft, getLsbD_fe_eq_getMsbD, getLsbD_fe_eq_getMsbD, BitVec.getMsbD_ushiftRight]
    simp [hi]

/-- Shifting a field element multiplies it by `x`, but for the coefficient of `x^127`, which is lost. -/
theorem toPolynomial_shiftLeft_one (p : Poly) :
    toPolynomial p * X = toPolynomial (p <<< 1) + if p.getLsbD 127 then X ^ 128 else 0 := by
  have hbit : ∀ i < 127, (p <<< 1).getLsbD (i + 1) = p.getLsbD i := fun i hi => by
    rw [BitVec.getLsbD_shiftLeft, Nat.add_sub_cancel]
    simp [show i + 1 < 128 by omega]
  have hshift : toPolynomial (p <<< 1) = ∑ i ∈ Finset.range 127, if p.getLsbD i then X ^ (i + 1) else 0 := by
    rw [toPolynomial, Finset.sum_range_succ', show (p <<< 1).getLsbD 0 = false by simp, if_neg Bool.false_ne_true,
      add_zero]
    exact Finset.sum_congr rfl fun i hi => by rw [hbit i (Finset.mem_range.mp hi)]
  rw [hshift, toPolynomial, Finset.sum_range_succ, add_mul, Finset.sum_mul]
  simp only [ite_mul, zero_mul, ← pow_succ]

/-- The constant of the bit-serial multiplication is `x^128` modulo g. -/
theorem X_pow_modByMonic : X ^ 128 %ₘ fieldModulus = toPolynomial (fe serialConstant) := by
  have hconstant : fe serialConstant = foldOnce 1#128 := by decide +kernel
  have htail : toPolynomial (fe serialConstant) = fieldTail := by
    rw [hconstant, toPolynomial_foldOnce (d := 1) (fun i hi => by simp; omega) (by omega), toPolynomial_one (by omega),
      one_mul]
  rw [X_pow_eq_fieldModulus_add_fieldTail, add_modByMonic, modByMonic_self monic_fieldModulus, zero_add, ← htail,
    toPolynomial_modByMonic]

/-- What a round makes of V: its product with `x`. -/
theorem toPolynomial_fe_serialShift (v : Block) :
    toPolynomial (fe (if v.getMsbD 127 then v >>> 1 ^^^ serialConstant else v >>> 1)) =
      (toPolynomial (fe v) * X) %ₘ fieldModulus := by
  rw [toPolynomial_shiftLeft_one, add_modByMonic, toPolynomial_modByMonic, getLsbD_fe_eq_getMsbD]
  split
  · rw [fe_xor, toPolynomial_xor, fe_ushiftRight_one, X_pow_modByMonic]
  · rw [fe_ushiftRight_one, zero_modByMonic, add_zero]

theorem serialRounds_succ_fst (x y : Block) (i : Nat) :
    (serialRounds x y (i + 1)).1 =
      if x.getMsbD i then (serialRounds x y i).1 ^^^ (serialRounds x y i).2 else (serialRounds x y i).1 := rfl

theorem serialRounds_succ_snd (x y : Block) (i : Nat) :
    (serialRounds x y (i + 1)).2 =
      if (serialRounds x y i).2.getMsbD 127 then (serialRounds x y i).2 >>> 1 ^^^ serialConstant
      else (serialRounds x y i).2 >>> 1 := rfl

/-- After `i` rounds V is `x^i` times Y. -/
theorem toPolynomial_serialRounds_snd (x y : Block) (i : Nat) :
    toPolynomial (fe (serialRounds x y i).2) = (X ^ i * toPolynomial (fe y)) %ₘ fieldModulus := by
  induction i with
  | zero => rw [pow_zero, one_mul, toPolynomial_modByMonic, serialRounds]
  | succ i ih =>
    rw [serialRounds_succ_snd, toPolynomial_fe_serialShift, ih, modByMonic_mul_modByMonic, pow_succ, mul_right_comm]

/-- After `i` rounds Z is the part of X below `x^i`, times Y. -/
theorem toPolynomial_serialRounds_fst (x y : Block) (i : Nat) :
    toPolynomial (fe (serialRounds x y i).1) =
      ((∑ j ∈ Finset.range i, if (fe x).getLsbD j then X ^ j else 0) * toPolynomial (fe y)) %ₘ fieldModulus := by
  induction i with
  | zero =>
    rw [Finset.sum_range_zero, zero_mul, zero_modByMonic, serialRounds]
    exact (congrArg toPolynomial fe_zero).trans (toPolynomial_zero 128)
  | succ i ih =>
    rw [serialRounds_succ_fst, Finset.sum_range_succ, add_mul, add_modByMonic, ← ih, getLsbD_fe_eq_getMsbD]
    split
    · rw [fe_xor, toPolynomial_xor, toPolynomial_serialRounds_snd]
    · rw [zero_mul, zero_modByMonic, add_zero]

/-- The reference function is the bit-serial product (41_field_primitive.md R125). -/
theorem gfmul_eq_serialProduct (x y : Block) : gfmul x y = serialProduct x y := by
  have hpoly : fieldMul (fe x) (fe y) = fe (serialProduct x y) := toPolynomial_injective <| by
    rw [toPolynomial_fieldMul, serialProduct, toPolynomial_serialRounds_fst, ← toPolynomial]
  rw [gfmul, hpoly, bytesOf_fe]

/-! ### MUL (41_field_primitive.md R127) -/

/-- Settles O19: the completion with Effect(MUL). -/
theorem mulCompletesWithTheProduct : Obligations.MulCompletesWithTheProduct :=
  fun _ _ hp => ⟨_, _, exec_pending hp .mul⟩

/-- Settles O28: MUL leaves GFMUL(A, B), which is the bit-serial product. -/
theorem mulEqualsTheBitSerialProduct : Obligations.MulEqualsTheBitSerialProduct := by
  intro s rev hp
  obtain ⟨parts, draws, hexec⟩ := mulCompletesWithTheProduct s rev hp
  exact ⟨_, hexec, gfmul_eq_serialProduct s.regs.a s.regs.b⟩

end Sys2Proof.Machine
end

section
/-! PROOFS. The table builder (42_table_builder.md R151 to R154): what a BUILD leaves in the slots, and that nothing
else writes the table. -/

namespace Sys2Proof.Machine

open Sys2Proof

/-! ### The completion of a BUILD (42_table_builder.md R151, R152) -/

/-- A legal BUILD fits the eight slots of the table. -/
theorem wholeBlocks_le_of_build {len : BitVec 8} (hlen : len.toNat ∈ [32, 64, 96, 128]) : wholeBlocks len ≤ 8 := by
  have hmem := wholeBlocks_of_build (decide_eq_true hlen)
  simp only [List.mem_cons, List.not_mem_nil, or_false] at hmem
  omega

/-- Effect(BUILD), slot by slot. -/
theorem slot_buildEffect {len : BitVec 8} (s : State) {k : Nat} (hfit : wholeBlocks len ≤ 8) (hk : 1 ≤ k) :
    Table.slot (buildEffect len s).tbl k =
      if k ≤ wholeBlocks len then fe (selfProduct s.regs.hkey (k - 1)) else Table.slot s.tbl k := by
  have hrange : 0 < k ∧ k ≤ 0 + wholeBlocks len ↔ k ≤ wholeBlocks len := by omega
  calc Table.slot (buildEffect len s).tbl k
      = if 0 < k ∧ k ≤ 0 + wholeBlocks len then fe (selfProduct s.regs.hkey (k - 1)) else Table.slot s.tbl k :=
        slot_buildSlots s.regs.hkey s.tbl (k := 0) (by omega) hk
    _ = _ := if_congr hrange rfl rfl

/-- Settles O20: the completion with Effect(BUILD), whose slots are those of `slot_buildEffect`. -/
theorem buildCompletesWithThePowers : Obligations.BuildCompletesWithThePowers :=
  fun s len _ hp hlen =>
    ⟨(buildEffect len s).tbl, _, _, exec_pending hp (.build len),
      fun _ hk _ => slot_buildEffect s (wholeBlocks_le_of_build hlen) hk⟩

/-! ### Who writes the table (42_table_builder.md R154) -/

/-- Only Effect(BUILD) writes TBL. -/
theorem effectOf_tbl (i : Instr) (revS : Bool) (s : State) :
    (effectOf i revS s).tbl = s.tbl ∨ ∃ len, i = .build len := by
  cases i with
  | nop => exact .inl rfl
  | mul => exact .inl rfl
  | build len => exact .inr ⟨len, rfl⟩
  | auth len => exact .inl rfl
  | norm rsel => rcases normEffect_eq rsel revS s with h | ⟨r, -, -, h⟩ <;> exact .inl (by simp [effectOf, h])

/-- Settles O50: of the changes a step makes, only a completion and the assertion of reset write TBL, and of the Effects
only that of BUILD. -/
theorem onlyBuildChangesTheTable : Obligations.OnlyBuildChangesTheTable := by
  intro s s' hstep hne
  obtain ⟨rest, hchange⟩ := step_change hstep
  cases hchange with
  | completion p hp =>
    rcases effectOf_tbl p.instr p.revS (turn rest s) with h | ⟨len, hbuild⟩
    · exact absurd h hne
    · exact .inl ⟨len, p.revS, by rw [← hbuild]; exact hp, rfl⟩
  | resetAsserted => exact .inr rfl
  | rejection e hr => exact absurd (raiseError_tbl e _) hne
  | _ => exact absurd rfl hne

end Sys2Proof.Machine
end

section
/-! PROOFS. The authenticator (43_authenticator.md R170 to R176): the one reduction of a group, the loop over the
groups, and AUTH against the sequential GHASH update. -/

namespace Sys2Proof.Machine

open Sys2Proof

/-! ### The sequential update (43_authenticator.md R173) -/

theorem sequentialGhash_append (h x : Block) (bs cs : List Block) :
    sequentialGhash h x (bs ++ cs) = sequentialGhash h (sequentialGhash h x bs) cs :=
  List.foldl_append

/-- The field element of one more block: add it, then multiply by H. -/
theorem fe_sequentialGhash_concat (h x : Block) (bs : List Block) (b : Block) :
    fe (sequentialGhash h x (bs ++ [b])) = fieldMul (fe (sequentialGhash h x bs) ^^^ fe b) (fe h) := by
  rw [sequentialGhash_append, sequentialGhash, List.foldl_cons, List.foldl_nil, gfmul, fe_bytesOf, fe_xor]

/-- A product with one power of H more is a product with H first. -/
theorem fieldMul_selfProduct_succ (h : Block) (p : Poly) (k : Nat) :
    fieldMul p (fe (selfProduct h (k + 1))) = fieldMul (fieldMul p (fe h)) (fe (selfProduct h k)) := by
  rw [← fieldMul_fe_selfProduct, fieldMul_comm (fe (selfProduct h k)), fieldMul_assoc]

theorem xor_fieldMul (a b c : Poly) : fieldMul (a ^^^ b) c = fieldMul a c ^^^ fieldMul b c := by
  rw [fieldMul_comm, fieldMul_xor, fieldMul_comm c a, fieldMul_comm c b]

/-! ### A group (43_authenticator.md R171) -/

/-- The reduction is linear, so the sums of a group can be reduced once, at its end. -/
theorem reduce_xor (a0 a1 a2 b0 b1 b2 : Poly) :
    reduce (a0 ^^^ b0) (a1 ^^^ b1) (a2 ^^^ b2) = reduce a0 a1 a2 ^^^ reduce b0 b1 b2 := by
  apply toPolynomial_injective
  simp only [toPolynomial_reduce, toPolynomial_xor, ← Polynomial.add_modByMonic]
  exact congrArg (Polynomial.modByMonic · fieldModulus) (by ring)

/-- The reduction of a group's sums after its first `count` blocks: `groupFold` is that of the whole group
(`groupFold_eq_reducedSums`). -/
def reducedSums (blk : Nat → Block) (slot : Nat → Poly) (x : Poly) (i g count : Nat) : Poly :=
  let c := groupSums blk slot x i g count
  reduce c.c0 c.c1 c.c2

theorem groupFold_eq_reducedSums (blk : Nat → Block) (slot : Nat → Poly) (x : Poly) (i g : Nat) :
    groupFold blk slot x i g = reducedSums blk slot x i g g := rfl

theorem reducedSums_zero (blk : Nat → Block) (slot : Nat → Poly) (x : Poly) (i g : Nat) :
    reducedSums blk slot x i g 0 = 0#128 := by
  change reduce 0#128 0#128 0#128 = 0#128
  decide +kernel

theorem reducedSums_succ (blk : Nat → Block) (slot : Nat → Poly) (x : Poly) (i g j : Nat) :
    reducedSums blk slot x i g (j + 1) =
      reducedSums blk slot x i g j ^^^ fieldMul (groupOperand blk x i j) (slot (g - j)) :=
  reduce_xor _ _ _ _ _ _

/-- After `j + 1` blocks of a group the sums reduce to the sequential update over the first `j`, plus the next block,
times the power of H that is still due. -/
theorem reducedSums_eq_sequentialGhash {blk : Nat → Block} {t : Table} {h x : Block} {i g j : Nat}
    (ht : tableHolds h g t) (hj : j < g) :
    reducedSums blk (Table.slot t) (fe x) i g (j + 1) =
      fieldMul (fe (sequentialGhash h x ((List.range' i j).map blk)) ^^^ fe (blk (i + j))) (Table.slot t (g - j)) := by
  induction j with
  | zero =>
    rw [reducedSums_succ, reducedSums_zero, BitVec.zero_xor, groupOperand, if_pos rfl, BitVec.xor_comm]
    rfl
  | succ j ih =>
    have hpower : Table.slot t (g - j) = fe (selfProduct h (g - (j + 1) - 1 + 1)) := by
      rw [ht (g - j) (by omega) (by omega)]
      congr 2
      omega
    have hnext : Table.slot t (g - (j + 1)) = fe (selfProduct h (g - (j + 1) - 1)) := ht _ (by omega) (by omega)
    rw [reducedSums_succ, ih (by omega), hpower, fieldMul_selfProduct_succ, ← hnext, ← fe_sequentialGhash_concat,
      groupOperand, if_neg (by omega), ← xor_fieldMul, List.range'_1_concat, List.map_append, List.map_singleton]

/-- A group leaves the sequential update over its blocks. -/
theorem groupFold_eq_sequentialGhash {blk : Nat → Block} {t : Table} {h x : Block} {i g : Nat} (ht : tableHolds h g t)
    (hg : 0 < g) :
    groupFold blk (Table.slot t) (fe x) i g = fe (sequentialGhash h x ((List.range' i g).map blk)) := by
  obtain ⟨j, rfl⟩ : ∃ j, g = j + 1 := ⟨g - 1, by omega⟩
  have hslot : Table.slot t (j + 1 - j) = fe h := by
    rw [Nat.add_sub_cancel_left]
    exact ht 1 le_rfl hg
  rw [groupFold_eq_reducedSums, reducedSums_eq_sequentialGhash ht (Nat.lt_succ_self j), hslot,
    ← fe_sequentialGhash_concat, List.range'_1_concat, List.map_append, List.map_singleton]

/-! ### The loop over the groups (43_authenticator.md R172) -/

theorem tableHolds_mono {h : Block} {m n : Nat} {t : Table} (hmn : m ≤ n) (ht : tableHolds h n t) : tableHolds h m t :=
  fun k hk hkm => ht k hk (hkm.trans hmn)

/-- A round of the loop takes one group. -/
theorem authGroups_of_lt {blk : Nat → Block} {slot : Nat → Poly} {n s fuel i : Nat} {x : Poly} (hi : i < s) :
    authGroups blk slot n s (fuel + 1) i x =
      authGroups blk slot n s fuel (i + min (s - i) n) (groupFold blk slot x i (min (s - i) n)) := if_pos hi

/-- Past the last block the loop is done. -/
theorem authGroups_of_le {blk : Nat → Block} {slot : Nat → Poly} {n s fuel i : Nat} {x : Poly} (hi : s ≤ i) :
    authGroups blk slot n s fuel i x = x := by
  cases fuel with
  | zero => rfl
  | succ fuel => exact if_neg (by omega)

/-- The loop leaves the sequential update over the blocks from `i` to `s`, whatever the size `n` of the groups. -/
theorem authGroups_eq_sequentialGhash {blk : Nat → Block} {t : Table} {h x : Block} {n s fuel i : Nat}
    (ht : tableHolds h n t) (hn : 0 < s → 0 < n) (hfuel : s - i ≤ fuel) :
    authGroups blk (Table.slot t) n s fuel i (fe x) =
      fe (sequentialGhash h x ((List.range' i (s - i)).map blk)) := by
  induction fuel generalizing i x with
  | zero =>
    rw [Nat.le_zero.mp hfuel]
    rfl
  | succ fuel ih =>
    by_cases hi : i < s
    · have hpos : 0 < n := hn (by omega)
      have hrest : s - i = min (s - i) n + (s - (i + min (s - i) n)) := by omega
      rw [authGroups_of_lt hi,
        groupFold_eq_sequentialGhash (tableHolds_mono (Nat.min_le_right _ _) ht) (by omega), ih (by omega),
        ← sequentialGhash_append, ← List.map_append, List.range'_append_1, ← hrest]
    · rw [authGroups_of_le (by omega), Nat.sub_eq_zero_of_le (Nat.le_of_not_lt hi)]
      rfl

/-! ### The completion of an AUTH -/

theorem authEffect_acc (len : BitVec 8) (s : State) :
    (authEffect len s).regs.acc = bytesOf (authGroups (readBlk s) (Table.slot s.tbl) s.powers (wholeBlocks len)
      (wholeBlocks len) 0 (fe s.regs.acc)) := rfl

/-- On a valid table Effect(AUTH) is the sequential update over its blocks (43_authenticator.md R173). -/
theorem authEffect_acc_eq_sequentialGhash {s : State} {len : BitVec 8} (hpowers : 0 < wholeBlocks len → 0 < s.powers)
    (ht : tableHolds s.regs.hkey s.powers s.tbl) :
    (authEffect len s).regs.acc =
      sequentialGhash s.regs.hkey s.regs.acc ((List.range (wholeBlocks len)).map (readBlk s)) := by
  rw [authEffect_acc, authGroups_eq_sequentialGhash ht hpowers (Nat.sub_le _ _), bytesOf_fe, Nat.sub_zero,
    List.range_eq_range']

/-- The completion of an AUTH on a table that is not empty. -/
theorem exec_auth_acc {s t : State} {h : Block} {len : BitVec 8} {rev : Bool} (hp : s.pend = some ⟨.auth len, rev⟩)
    (hkey : s.regs.hkey = h) (hpowers : s.powers ∈ [2, 4, 6, 8]) (ht : tableHolds h s.powers s.tbl)
    (hexec : exec (.auth len) s = .next t) :
    t.regs.acc = sequentialGhash h s.regs.acc ((List.range (wholeBlocks len)).map (readBlk s)) := by
  subst hkey
  cases (exec_pending hp (.auth len)).symm.trans hexec
  refine authEffect_acc_eq_sequentialGhash (fun _ => Nat.pos_of_ne_zero fun hzero => ?_) ht
  rw [hzero] at hpowers
  simp at hpowers

/-- Settles O29: the completion with Effect(AUTH), whose accumulator is that of `authEffect_acc_eq_sequentialGhash`. -/
theorem authEqualsSequentialGhash : Obligations.AuthEqualsSequentialGhash := by
  intro s len rev hp _ hneeds _ ht
  refine ⟨_, exec_pending hp (.auth len), authEffect_acc_eq_sequentialGhash (fun hblocks => ?_) ht⟩
  have hpowers : s.status.tblPowers ≠ 0 := hneeds (by rw [wholeBlocks] at hblocks; omega)
  exact Nat.pos_of_ne_zero fun hzero => hpowers (BitVec.eq_of_toNat_eq hzero)

/-- Settles O30: each of the three AUTHs leaves the sequential update over its blocks, and the long one's blocks are
those of the two. -/
theorem authSplitsAtBlockBoundaries : Obligations.AuthSplitsAtBlockBoundaries := by
  intro s s₁ s₂ t₁ t₂ len len₁ len₂ rev rev₁ rev₂ hp hp₁ hp₂ _ hlen htables hblk₁ hblk₂ hacc₁ hexec₁ hacc₂ hexec₂
  simp only [List.forall_mem_cons] at htables
  obtain ⟨⟨-, hpowers, ht⟩, ⟨hkey₁, hpowers₁, ht₁⟩, ⟨hkey₂, hpowers₂, ht₂⟩, -⟩ := htables
  have hblocks : (List.range (wholeBlocks len)).map (readBlk s) =
      (List.range (wholeBlocks len₁)).map (readBlk s₁) ++ (List.range (wholeBlocks len₂)).map (readBlk s₂) := by
    rw [wholeBlocks, hlen, List.range_add, List.map_append, List.map_map]
    congr 1
    · exact List.map_congr_left fun i hi => hblk₁ i (List.mem_range.mp hi)
    · exact List.map_congr_left fun i hi => hblk₂ i (List.mem_range.mp hi)
  refine ⟨_, exec_pending hp (.auth len), ?_⟩
  rw [exec_auth_acc hp rfl hpowers ht (exec_pending hp (.auth len)), exec_auth_acc hp₂ hkey₂ hpowers₂ ht₂ hexec₂,
    hacc₂, exec_auth_acc hp₁ hkey₁ hpowers₁ ht₁ hexec₁, hacc₁, hblocks, sequentialGhash_append]

/-- AUTHs one after the other leave the sequential update over all their blocks (43_authenticator.md R174). -/
theorem chunkedAuths_eq_sequentialGhash {h x y : Block} {chunks : List (State × BitVec 8)}
    (hauths : chunkedAuths h x chunks y) : y = sequentialGhash h x (chunkBlocks chunks) := by
  induction chunks generalizing x with
  | nil => exact hauths
  | cons chunk chunks ih =>
    obtain ⟨s, len⟩ := chunk
    obtain ⟨rfl, hkey, -, hpowers, ht, ⟨rev, hp⟩, t, hexec, hrest⟩ := hauths
    rw [ih hrest, exec_auth_acc hp hkey hpowers ht hexec, ← sequentialGhash_append]
    rfl

/-- Settles O58: either sequence leaves the sequential update over the same blocks. -/
theorem chunkingLeavesTheSequentialGhash : Obligations.ChunkingLeavesTheSequentialGhash := by
  intro h x y₁ y₂ chunks₁ chunks₂ hblocks hauths₁ hauths₂
  have hy₁ := chunkedAuths_eq_sequentialGhash hauths₁
  exact ⟨by rw [hy₁, hblocks, chunkedAuths_eq_sequentialGhash hauths₂], hy₁⟩

/-- Settles O21: the completion with Effect(AUTH). -/
theorem authCompletesWithTheGroupFold : Obligations.AuthCompletesWithTheGroupFold :=
  fun _ len _ hp _ _ => ⟨_, _, exec_pending hp (.auth len)⟩

/-! ### AUTH without a table (43_authenticator.md R170) -/

/-- A command that needs a table is rejected without one (40_command_issue.md R101). -/
theorem issue_noTable {i : Instr} {s : State} (hw : i.wellFormed = true) (hneeds : needsTable i = true)
    (ht : s.status.tblPowers = 0) : issue i s = raiseError .noTable s := by
  simp [issue, (operandError_eq_none_iff i).mpr hw, hneeds, ht]

/-- Settles O9: such an AUTH has a legal LEN and needs a table. -/
theorem authWithoutTableIsRejected : Obligations.AuthWithoutTableIsRejected := by
  intro len s hp ht hmin hmax
  have hneeds : needsTable (.auth len) = true := (needsTable_iff _).mpr ⟨len, rfl, hmin⟩
  have hlegal : (Instr.auth len).wellFormed = true := decide_eq_true hmax
  rw [exec_idle hp, issue_noTable hlegal hneeds ht, raiseError_eq_recorded]
  rfl

end Sys2Proof.Machine
end

section
/-! PROOFS. The normalizer (44_normalizer.md R200, R203): what a NORM does to the register its RSEL names, and that a
second one undoes it. -/

namespace Sys2Proof.Machine

open Sys2Proof

/-- Reversing the bytes twice restores the string (00_scope.md R13). -/
theorem rev16_rev16 (r : Block) : rev16 (rev16 r) = r :=
  block_ext fun k hk => by
    rw [byteOf_rev16 _ hk, byteOf_rev16 _ (by omega), Nat.sub_sub_self (Nat.le_of_lt_succ hk)]

/-! ### Effect(NORM), by rev_s (44_normalizer.md R200) -/

/-- With rev_s = 0 a NORM has no effect. -/
theorem normEffect_false (rsel : BitVec 4) (s : State) : normEffect rsel false s = s := by
  unfold normEffect
  cases regOfRsel rsel <;> rfl

/-- With rev_s = 1 a NORM reverses the register RSEL names. -/
theorem normEffect_true {rsel : BitVec 4} {r : DataReg} (hr : regOfRsel rsel = some r) (s : State) :
    normEffect rsel true s = s.setReg r (rev16 (s.regs.read r)) := by
  simp [normEffect, hr]

/-- A NORM whose RSEL names no register has no effect. -/
theorem normEffect_of_regOfRsel_eq_none {rsel : BitVec 4} (hr : regOfRsel rsel = none) (revS : Bool) (s : State) :
    normEffect rsel revS s = s := by
  simp [normEffect, hr]

/-- A NORM of the registers another NORM left, with the same RSEL and rev_s, restores the registers the first one
found (44_normalizer.md R203). -/
theorem normEffect_regs_of_normEffect_regs {rsel : BitVec 4} {revS : Bool} {s t : State}
    (ht : t.regs = (normEffect rsel revS s).regs) : (normEffect rsel revS t).regs = s.regs := by
  cases revS with
  | false => rw [normEffect_false, ht, normEffect_false]
  | true =>
    cases hr : regOfRsel rsel with
    | none => rw [normEffect_of_regOfRsel_eq_none hr, ht, normEffect_of_regOfRsel_eq_none hr]
    | some r =>
      rw [normEffect_true hr, setReg_regs] at ht
      rw [normEffect_true hr, setReg_regs, ht, DataRegs.read_write, if_pos rfl, rev16_rev16, DataRegs.write_write,
        DataRegs.write_read]

/-! ### The completion of a NORM -/

/-- Settles O22: the completion with Effect(NORM), which by rev_s leaves the registers or writes the reversed string to
the one RSEL names. -/
theorem normCompletesWithTheReversal : Obligations.NormCompletesWithTheReversal := by
  intro s r rev rsel hp
  have hr : regOfRsel rsel = some r := by cases r <;> rfl
  have hexec : exec (.norm rsel) s = .next (complete (normEffect rsel rev s)) := exec_pending hp (.norm rsel)
  cases rev with
  | false =>
    rw [normEffect_false] at hexec
    exact ⟨s.regs, _, _, hexec, fun _ => rfl, nofun, fun _ _ => rfl⟩
  | true =>
    rw [normEffect_true hr] at hexec
    refine ⟨s.regs.write r (rev16 (s.regs.read r)), _, _, hexec, nofun, fun _ k hk => ?_, fun r' hne => ?_⟩
    · rw [DataRegs.read_write, if_pos rfl, byteOf_rev16 _ hk]
    · rw [DataRegs.read_write, if_neg hne]

/-- Settles O23: each completion is Effect(NORM), and the second undoes the first. -/
theorem normTwiceRestoresTheRegister : Obligations.NormTwiceRestoresTheRegister := by
  intro s t t' u rsel rev hp hexec hp' hregs hexec'
  cases (exec_pending hp (.norm rsel)).symm.trans hexec
  cases (exec_pending hp' (.norm rsel)).symm.trans hexec'
  exact normEffect_regs_of_normEffect_regs hregs

end Sys2Proof.Machine
end

section
/-! PROOFS. The exceptions (60_exceptions.md R220 to R230): the recording of errors and their clearing, the writes that
a pending command drops, and a completion and a rejection in either order. -/

namespace Sys2Proof.Machine

open Sys2Proof

/-! ### The recording and the clearing of errors (60_exceptions.md R220, R222, R230) -/

/-- Settles O15: the codes, one by one. -/
theorem errorCodesAreTheTables : Obligations.ErrorCodesAreTheTables :=
  ⟨rfl, rfl, rfl, rfl, rfl, rfl, rfl, rfl⟩

/-- With ERR set, rejections change ERR_MULTI only. -/
theorem foldl_raiseError_of_err {s : State} (herr : s.status.err = true) (es : List CmdError) :
    es.foldl (fun t e => raiseError e t) s =
      { s with status := { s.status with errMulti := s.status.errMulti || !es.isEmpty } } := by
  induction es generalizing s with
  | nil => simp
  | cons e es ih =>
    rw [List.foldl_cons, ih (raiseError_err e s), raiseError_eq]
    simp [herr]

/-- Settles O14: the first rejection sets ERR and its code, and those after it find ERR set. -/
theorem firstErrorIsKept : Obligations.FirstErrorIsKept := by
  constructor
  · intro s e
    unfold raiseError
    cases s.status.err <;> rfl
  · intro s e es herr hmulti
    rw [List.foldl_cons, foldl_raiseError_of_err (raiseError_err e s), raiseError_eq]
    simp [herr, hmulti]

/-- Settles O16: the step is the clearing of STATUS, field by field, and irq is a view of STATUS and CTRL. -/
theorem statusWriteClearsThroughW1CBits : Obligations.StatusWriteClearsThroughW1CBits := by
  intro s d rest hi hr
  refine ⟨_, step_wr32 hi hr (by omega) rfl, clearStatus_eq d (turn rest s), ?_⟩
  rw [clearStatus_eq]
  rfl

/-! ### Data writes while a command is pending (60_exceptions.md R223) -/

/-- The offsets of the data that the host can write: the words of A, B, ACC and HKEY, and the block buffer
(10_state.md R36). -/
theorem target_writableData {o : Nat}
    (ho : (0x20 ≤ o ∧ o < 0x40) ∨ (0x50 ≤ o ∧ o < 0x70) ∨ (0x80 ≤ o ∧ o < 0x100)) :
    (∃ r j, r ≠ .res ∧ target o = .data r j) ∨ target o = .blk o := by
  have hrow : o / 16 = 2 ∨ o / 16 = 3 ∨ o / 16 = 5 ∨ o / 16 = 6 ∨ 0x80 ≤ o := by omega
  rcases hrow with h | h | h | h | h
  · exact .inl ⟨.a, o / 4 % 4, nofun, by simp only [target, h]⟩
  · exact .inl ⟨.b, o / 4 % 4, nofun, by simp only [target, h]⟩
  · exact .inl ⟨.acc, o / 4 % 4, nofun, by simp only [target, h]⟩
  · exact .inl ⟨.hkey, o / 4 % 4, nofun, by simp only [target, h]⟩
  · exact .inr (target_blkOffset h)

/-- While a command is pending, a write to a word of a data register other than RES is dropped and recorded. -/
theorem writeTarget_data_pending {s : State} {p : Pending} (hp : s.pend = some p) {r : DataReg} (hres : r ≠ .res)
    (j : Nat) (d : Word32) : writeTarget (.data r j) d s = .next (raiseError .writeBusy s) := by
  cases r with
  | res => exact absurd rfl hres
  | _ => rw [writeTarget, guardedWrite_pending hp]

/-- Settles O39: each of these offsets holds a word whose write a pending command drops. -/
theorem dataWriteWhileBusyIsDropped : Obligations.DataWriteWhileBusyIsDropped := by
  intro s o d rest p hi hr hp ha ho
  have hp' : (turn rest s).pend = some p := hp
  have hdropped : writeTarget (target o) d (turn rest s) = .next (raiseError .writeBusy (turn rest s)) := by
    rcases target_writableData ho with ⟨r, j, hres, ht⟩ | ht <;> rw [ht]
    · exact writeTarget_data_pending hp' hres j d
    · rw [writeTarget, guardedWrite_pending hp']
  rw [step_wr32 hi hr (by omega) ha, hdropped, raiseError_eq_recorded]
  rfl

/-! ### A CMD write and the engine's turn after it (60_exceptions.md R221) -/

/-- A CMD write answers a next state, whatever the word, and leaves the steps to come. -/
theorem presentCommand_next (d : Word32) (s : State) : ∃ t, presentCommand d s = .next t ∧ t.inputs = s.inputs := by
  rcases presentCommand_cases d s with ⟨e, h⟩ | ⟨-, i, h⟩
  · exact ⟨_, h, raiseError_inputs e s⟩
  · exact ⟨_, h, rfl⟩

/-- After the engine's turn nothing is pending. -/
theorem step_engine_idle {s : State} {rest : List Input} (hi : s.inputs = .engine :: rest) :
    ∃ u, step s = .next u ∧ u.pend = none ∧ u.inputs = rest := by
  cases hp : s.pend with
  | none => exact ⟨turn rest s, by simp [step, hi, inputStep, engineStep, hp], hp, rfl⟩
  | some p => exact ⟨_, step_engine_pending hi hp, rfl, (complete_effectOf_frame p.instr p.revS _).1⟩

/-- Settles O13: the CMD write leaves the engine's turn to come, which leaves nothing pending. -/
theorem noCommandWordStopsTheBlock : Obligations.NoCommandWordStopsTheBlock := by
  intro s d rest hi hr
  obtain ⟨t, hwrite, hinputs⟩ := presentCommand_next d (turn (.engine :: rest) s)
  obtain ⟨u, hengine, hpend, hrest⟩ := step_engine_idle hinputs
  exact ⟨t, u, (step_wr32 hi hr (by omega) rfl).trans hwrite, hengine, hpend, hrest⟩

/-! ### A completion and a rejection in either order (60_exceptions.md R224) -/

/-- What the engine's turn leaves of a state with `p` pending (`step_engine_pending`). -/
def completed (p : Pending) (rest : List Input) (s : State) : State := complete (effectOf p.instr p.revS (turn rest s))

/-- Effect(NORM) commutes with an update that keeps the data registers and commutes with a write to one. -/
theorem normEffect_comm {f : State → State} {s : State} (rsel : BitVec 4) (revS : Bool) (hregs : (f s).regs = s.regs)
    (hset : ∀ r v, (f s).setReg r v = f (s.setReg r v)) : normEffect rsel revS (f s) = f (normEffect rsel revS s) := by
  unfold normEffect
  rw [hregs]
  cases regOfRsel rsel with
  | none => rfl
  | some r =>
    cases revS with
    | false => rfl
    | true => exact hset r _

/-- No Effect reads or writes the error fields. -/
theorem effectOf_recorded (i : Instr) (revS : Bool) (code : BitVec 4) (s : State) :
    effectOf i revS (recorded code s) = recorded code (effectOf i revS s) := by
  cases i with
  | norm rsel => exact normEffect_comm rsel revS rfl fun _ _ => rfl
  | _ => rfl

/-- No Effect reads the steps to come or the data of the read before it. -/
theorem effectOf_turn (i : Instr) (revS : Bool) (rest : List Input) (s : State) :
    effectOf i revS (turn rest s) = turn rest (effectOf i revS s) := by
  cases i with
  | norm rsel => exact normEffect_comm rsel revS rfl fun _ _ => rfl
  | _ => rfl

theorem completed_recorded (p : Pending) (rest : List Input) (code : BitVec 4) (s : State) :
    completed p rest (recorded code s) = recorded code (completed p rest s) :=
  congrArg complete (effectOf_recorded p.instr p.revS code (turn rest s))

theorem turn_completed (p : Pending) (rest rest' : List Input) (s : State) :
    turn rest (completed p rest' s) = completed p rest s := by
  rw [completed, completed, effectOf_turn, effectOf_turn]
  rfl

theorem completed_err (p : Pending) (rest : List Input) (s : State) :
    (completed p rest s).status.err = s.status.err := by
  obtain ⟨regs, remain, tbl, n, h⟩ := effectOf_frame p.instr p.revS (turn rest s)
  rw [completed, h]
  rfl

theorem run_two_steps {s t u : State} (hfirst : step s = .next t) (hsecond : step t = .next u) :
    Host.Core.run core 2 s = .next u :=
  (run_step hfirst 1).trans (run_step hsecond 0)

/-- A CMD write before the completion is rejected with CMD_BUSY, and the command completes as it would have. -/
theorem run_rejection_completion {s : State} {p : Pending} (hr : s.inReset = false) (hp : s.pend = some p) (d : Word32)
    (rest : List Input) :
    Host.Core.run core 2 { s with inputs := wr32 0x10 d :: .engine :: rest } =
      .next (recorded 7 (completed p rest s)) := by
  have hwrite := cmdWriteWhileBusyIsRejected { s with inputs := wr32 0x10 d :: .engine :: rest } d _ p rfl hr hp
  have hengine : step (recorded 7 (turn (.engine :: rest) s)) = .next (completed p rest (recorded 7 s)) :=
    step_engine_pending rfl hp
  rw [completed_recorded] at hengine
  exact run_two_steps hwrite hengine

/-- A CMD write after the completion is one to an idle block, in the state the completion left. -/
theorem run_completion_rejection {s : State} {p : Pending} (hr : s.inReset = false) (hp : s.pend = some p) {d : Word32}
    {rest : List Input} {code : BitVec 4}
    (hreject : presentCommand d (completed p rest s) = .next (recorded code (completed p rest s))) :
    Host.Core.run core 2 { s with inputs := .engine :: wr32 0x10 d :: rest } =
      .next (recorded code (completed p rest s)) := by
  obtain ⟨hinputs, hreset⟩ := complete_effectOf_frame p.instr p.revS (turn (wr32 0x10 d :: rest) s)
  have hwrite : step (completed p (wr32 0x10 d :: rest) s) = presentCommand d (completed p rest s) :=
    (step_wr32 hinputs (hreset.trans hr) (by omega) rfl).trans (congrArg _ (turn_completed p rest _ s))
  exact run_two_steps (step_engine_pending rfl hp) (hwrite.trans hreject)

/-- Settles O55: both orders record an error in the state that the completion leaves, the one CMD_BUSY and the other the
word's own. -/
theorem completionAndRejectionComeInEitherOrder : Obligations.CompletionAndRejectionComeInEitherOrder := by
  intro s p d e rest hr hp hd
  have hreject := presentCommand_undecodable (s := completed p rest s) rfl hd
  exact ⟨_, _, run_rejection_completion hr hp d rest, run_completion_rejection hr hp hreject,
    rfl, rfl, rfl, rfl, rfl, rfl, rfl, rfl, rfl, rfl⟩

/-- Only the completion of a BUILD writes TBL_POWERS (10_state.md R33). -/
theorem completed_tblPowers {p : Pending} (hbuild : ∀ len, p.instr ≠ .build len) (rest : List Input) (s : State) :
    (completed p rest s).status.tblPowers = s.status.tblPowers := by
  rcases effectOf_tblPowers p.instr p.revS (turn rest s) with h | ⟨len, hlen, -⟩
  · exact h
  · exact absurd hlen (hbuild len)

/-- An idle engine without a table rejects the word of an AUTH of a block or more (43_authenticator.md R170). -/
theorem presentCommand_noTable {s : State} (hp : s.pend = none) (ht : s.status.tblPowers = 0) {d : Word32}
    {len : BitVec 8} (hd : decode d = .ok (.auth len)) (hlen : 16 ≤ len.toNat) :
    presentCommand d s = .next (recorded 6 s) := by
  obtain ⟨hword, hlegal⟩ := (decode_eq_ok_iff d (.auth len)).mp hd
  rw [presentCommand_idle hp ((decodeFields_eq_ok_iff d (.auth len)).mpr hword)]
  exact authWithoutTableIsRejected len s hp ht hlen (of_decide_eq_true hlegal)

/-- Settles O59: as for O55, with NO_TABLE for the word's own error, for the completion leaves no table.
The premise that a pending AUTH has no block is not needed: a CMD write does not advance the draws (log 11). -/
theorem completionAndNoTableComeInEitherOrder : Obligations.CompletionAndNoTableComeInEitherOrder := by
  intro s p d len rest hr hp hbuild ht _ hd hlen
  have hreject := presentCommand_noTable (s := completed p rest s) rfl
    ((completed_tblPowers hbuild rest s).trans ht) hd hlen
  have hcodes (herr : s.status.err = false) (code : BitVec 4) :
      (recorded code (completed p rest s)).status.errCode = code := by
    simp [recorded, completed_err, herr]
  exact ⟨_, _, run_rejection_completion hr hp d rest, run_completion_rejection hr hp hreject,
    rfl, rfl, rfl, rfl, fun herr => ⟨hcodes herr 7, hcodes herr 6⟩, rfl, rfl, rfl, rfl, rfl, rfl⟩

end Sys2Proof.Machine
end

section
/-! PROOFS. Reset and hazards (70_reset_and_hazards.md R260, R261, R275): the two steps of a reset, and the read that
comes after a write. -/

namespace Sys2Proof.Machine

open Sys2Proof

/-! ### The reset input (70_reset_and_hazards.md R260, R261) -/

theorem step_assertReset {s : State} {rest : List Input} (hi : s.inputs = .assertReset :: rest) :
    step s = .next (enterReset (turn rest s)) := by
  simp only [step, hi, inputStep]

theorem step_releaseReset {s : State} {rest : List Input} (hi : s.inputs = .releaseReset :: rest) :
    step s = .next (leaveReset (turn rest s)) := by
  simp only [step, hi, inputStep]

/-- After assertion and release the block is as right after reset: of the state before, only the steps to come and the
draw number remain, which are not the block's. -/
theorem leaveReset_enterReset (rest : List Input) (s : State) :
    leaveReset (turn rest (enterReset s)) = { State.reset with inputs := rest, draws := s.draws } := rfl

/-- Settles O46: the two steps leave the reset state, whose values O45 gives. -/
theorem resetAbandonsThePendingCommand : Obligations.ResetAbandonsThePendingCommand := by
  intro s rest hi
  obtain ⟨hregs, hblk, -, -, -, hstatus, hremain, hpend, hirq⟩ := resetValuesAreTheTables
  refine ⟨_, _, step_assertReset hi, step_releaseReset rfl, ?_⟩
  rw [leaveReset_enterReset]
  exact ⟨hregs, hblk, rfl, hstatus, hremain, hpend, hirq, rfl, rfl⟩

/-- While reset is asserted a transaction stops, whatever its offset and strobes. -/
theorem hostStep_inReset {s : State} (hr : s.inReset = true) (t : BusTransaction) :
    hostStep t s = .fault .heldInReset := by
  rw [hostStep, if_pos hr]

/-- Settles O47: the step is the bus transaction, with reset still asserted. -/
theorem noBusTransactionDuringReset : Obligations.NoBusTransactionDuringReset := by
  intro s t rest hi hr
  rw [step_bus hi]
  exact hostStep_inReset (s := turn rest s) hr t

/-! ### Which offset a target stands at (10_state.md R36) -/

theorem offset_of_target_status {o : Nat} (ha : o % 4 = 0) (h : target o = .status) : o = 0x0C := by
  unfold target at h
  split at h
  case h_1 hrow =>
    split at h
    case h_4 hid hcap hctrl =>
      have hword : o / 4 ≠ 0 ∧ o / 4 ≠ 1 ∧ o / 4 ≠ 2 := ⟨hid, hcap, hctrl⟩
      omega
    all_goals cases h
  case h_2 => split at h <;> cases h
  all_goals cases h

theorem offset_of_target_data {o : Nat} {r : DataReg} {j : Nat} (ha : o % 4 = 0) (h : target o = .data r j) :
    j < 4 ∧ o = regOffset r + 4 * j := by
  unfold target at h
  split at h
  case h_1 => split at h <;> cases h
  case h_2 => split at h <;> cases h
  case h_8 | h_9 => cases h
  all_goals
    cases h
    simp only [regOffset]
    omega

/-- The offsets of the data that the host can write are the words of the registers it names, but RES. -/
theorem writableOffset_eq {o : Nat} (ha : o % 4 = 0)
    (ho : (0x20 ≤ o ∧ o < 0x40) ∨ (0x50 ≤ o ∧ o < 0x70) ∨ (0x80 ≤ o ∧ o < 0x100)) :
    ∃ (r : HostReg) (j : Nat), r ≠ .data .res ∧ j < 4 ∧ o = hostOffset r + 4 * j := by
  rcases target_writableData ho with ⟨r, j, hres, ht⟩ | ht
  · obtain ⟨hj, rfl⟩ := offset_of_target_data ha ht
    exact ⟨.data r, j, by simpa using hres, hj, rfl⟩
  · obtain ⟨-, hlow⟩ := target_blk ht
    refine ⟨.blk ⟨(o - 0x80) / 16, by omega⟩, (o - 0x80) / 4 % 4, nofun, by omega, ?_⟩
    simp only [hostOffset, blkOffset]
    omega

/-! ### What the write of a word does to the words of the window (20_memory.md R57) -/

theorem heldWord_blk_writeBlkWord {a a' : Nat} (ha : a % 4 = 0) (ha' : a' % 4 = 0) (d : Word32) (s : State) :
    heldWord (.blk a') (writeBlkWord a d s) = if a' = a then d else heldWord (.blk a') s := by
  refine word_ext fun b hb => ?_
  rw [apply_ite (laneOf · b), heldWord, heldWord, laneOf_wordOfLanes _ hb, laneOf_wordOfLanes _ hb, blkByte_eq_getD,
    writeBlkWord_blk, Memory.lookup_writeWord]
  by_cases hword : a' = a
  · rw [if_pos (by omega), if_pos hword, hword, Nat.add_sub_cancel_left]
    rfl
  · rw [if_neg (by omega), if_neg hword, blkByte_eq_getD]
    rfl

/-- The write of a word of a data register, as a read of a data register sees it: HKEY's also clears TBL_POWERS, which
no data register shows. -/
theorem heldWord_data_writeHostWord {r : DataReg} (hres : r ≠ .res) (r' : DataReg) (j : Nat) {j' : Nat} (hj' : j' < 4)
    (d : Word32) (s : State) : heldWord (.data r' j') (writeHostWord (.data r) j d s) =
      if r' = r ∧ j' = j then d else heldWord (.data r' j') s := by
  simp only [heldWord, writeHostWord_regs hres, DataRegs.read_write]
  by_cases hreg : r' = r
  · subst hreg
    simp only [true_and, if_true]
    exact wordOf_withWord _ hj' d
  · simp only [hreg, false_and, if_false]

theorem writeHostWord_ctrl (r : HostReg) (j : Nat) (d : Word32) (s : State) :
    (writeHostWord r j d s).ctrl = s.ctrl := by
  cases r with
  | data r => cases r <;> rfl
  | blk i => rfl

theorem writeHostWord_remain (r : HostReg) (j : Nat) (d : Word32) (s : State) :
    (writeHostWord r j d s).remain = s.remain := by
  cases r with
  | data r => cases r <;> rfl
  | blk i => rfl

/-- The word written holds the data. -/
theorem heldWord_writeHostWord_same {r : HostReg} (hres : r ≠ .data .res) {j : Nat} (hj : j < 4) (d : Word32)
    (s : State) : heldWord (target (hostOffset r + 4 * j)) (writeHostWord r j d s) = d := by
  have ha := (hostOffset_word_inside r hj).2
  cases r with
  | data r =>
    have hres' : r ≠ .res := by simpa using hres
    rw [hostOffset, target_reg r hj, heldWord_data_writeHostWord hres' r j hj, if_pos ⟨rfl, rfl⟩]
  | blk i =>
    rw [target_blk_word]
    exact (heldWord_blk_writeBlkWord ha ha d s).trans (if_pos rfl)

/-- Every other word holds what it held, but STATUS, whose TBL_POWERS a write to HKEY clears (10_state.md R37). -/
theorem heldWord_writeHostWord_of_ne {r : HostReg} (hres : r ≠ .data .res) {j o : Nat} (hj : j < 4) (d : Word32)
    (s : State) (ha : o % 4 = 0) (hne : o ≠ hostOffset r + 4 * j) (hstatus : o ≠ 0x0C) :
    heldWord (target o) (writeHostWord r j d s) = heldWord (target o) s := by
  cases ht : target o with
  | status => exact absurd (offset_of_target_status ha ht) hstatus
  | data r' j' =>
    obtain ⟨hj', rfl⟩ := offset_of_target_data ha ht
    cases r with
    | data r =>
      have hres' : r ≠ .res := by simpa using hres
      rw [heldWord_data_writeHostWord hres' r' j hj', if_neg]
      rintro ⟨rfl, rfl⟩
      exact hne rfl
    | blk i => rfl
  | blk a =>
    obtain ⟨rfl, -⟩ := target_blk ht
    cases r with
    | data r => cases r <;> rfl
    | blk i =>
      exact (heldWord_blk_writeBlkWord (hostOffset_word_inside (.blk i) hj).2 ha d s).trans (if_neg hne)
  | ctrl => rw [heldWord, heldWord, ctrlWord, ctrlWord, writeHostWord_ctrl]
  | remain => rw [heldWord, heldWord, remainWord, remainWord, writeHostWord_remain]
  | id | cap | cmd | reserved => rfl

/-- With nothing pending every read returns what the word holds (20_memory.md R58). -/
theorem readTarget_idle {s : State} (hp : s.pend = none) (t : Target) : readTarget t s = heldWord t s :=
  readTarget_of_not_output fun p h => by cases hp.symm.trans h

/-- Settles O41: the write is that of a word of a register, which the read after it finds, and no other word. -/
theorem writeIsSeenByTheNextReadOnly : Obligations.WriteIsSeenByTheNextReadOnly := by
  intro s o o' d rest hi hr hp ha hwritable ha' ho'
  obtain ⟨r, j, hres, hj, rfl⟩ := writableOffset_eq ha hwritable
  obtain ⟨hinputs, hpend, hreset⟩ := writeHostWord_frame r j d (turn (rd32 o' :: rest) s)
  have hidle : (turn rest (writeHostWord r j d (turn (rd32 o' :: rest) s))).pend = none := hpend.trans hp
  refine ⟨_, _, _, step_write_word hi hr hp hj, step_rd32 hinputs (hreset.trans hr) ho' ha', step_rd32 rfl hr ho' ha',
    ?_, fun hne hstatus => ?_⟩
  · rintro rfl
    rw [busRead_rdata, readTarget_idle hidle, turn_writeHostWord, heldWord_writeHostWord_same hres hj]
  · rw [busRead_rdata, readTarget_idle hidle, turn_writeHostWord,
      heldWord_writeHostWord_of_ne hres hj d _ ha' hne hstatus]
    exact congrArg some (readTarget_idle (s := turn rest s) hp (target o')).symm

end Sys2Proof.Machine
end
